-- ==== Sys2Proof/Word.lean ====
section
/-! DEFINITION. The word types of the Parallel pixel sampler, at the widths of spec/00_scope.md R10. -/

namespace Sys2Proof

/-- A pixel byte, and the data of a pixel-port response (R10, R56). -/
abbrev Byte := BitVec 8

/-- A row or column number (R10: "row counter and column counter widths 16 bits each"). -/
abbrev Half := BitVec 16

/-- A host register and the three counters (R10: 32 bits). -/
abbrev Word32 := BitVec 32

/-- A sample vector, format S (R10: 11 bits). -/
abbrev Sample := BitVec 11

end Sys2Proof
end

