-- ==== Sys2Proof/Config.lean ====
section
/-! DEFINITION. The parameters of an instance (spec/00_scope.md R8, R9) and the one free value the spec leaves
(spec/93_implementation_defined.md U2). -/

namespace Sys2Proof

/-- `ROW_ADVANCE` (R9). -/
inductive RowAdvance where
  /-- The column wraps by count, HREF is not observed: the source's behaviour, and the default. -/
  | count
  /-- The row advances on an HREF transition: the corrected design of the source's §9. -/
  | href
deriving DecidableEq, Repr

/-- The parameters of an instance, fixed when the block is built (R8, R9, R32). -/
structure Config where
  /-- `ROWS`, the frame height. -/
  rows : Nat
  /-- `COLS`, the row width in pixel bytes. -/
  cols : Nat
  /-- `ROW_ADVANCE`. -/
  rowAdvance : RowAdvance
deriving DecidableEq, Repr

/-- R8: "Legal range: 1 <= ROWS <= 65535 and 1 <= COLS <= 65535". -/
def Config.valid (c : Config) : Bool :=
  1 ≤ c.rows && c.rows ≤ 65535 && (1 ≤ c.cols && c.cols ≤ 65535)

/-- The byte that a cell holds from power-on until a pixel event first writes it (R36, U2): a FREE VALUE, one per
power-on and cell. It has no body, so nothing can be proved of it but that one cell holds one byte (log entry 5). -/
opaque Config.unwrittenByte (powerOnIndex cell : Nat) : Byte

end Sys2Proof
end

