-- ==== Sys2Proof/Syntax.lean ====
section
/-! DEFINITION. What a step of the block can run: one constructor of `Instr` per row of spec/opcode_table.json, and the
five formats of spec/30_encoding.md R52 that they are decoded from. -/

namespace Sys2Proof

/-- The block has no instruction words (R2): an "instruction" is the input of a step, or an event the edge detector
raises inside a sample step. An operand is present where the rule of the row names one. -/
inductive Instr where
  /-- Format S, R66: take one sample vector. -/
  | sample (s : Sample)
  /-- Format T, R81: start a frame and swap the buffers. -/
  | vsyncRise
  /-- Format T, R82: end the current row (HREF mode). -/
  | hrefFall
  /-- Format T, R74: a pixel of COUNT mode; `cur` is the sample in which PCLK rose. -/
  | pclkRiseCount (cur : Sample)
  /-- Format T, R75: a pixel of HREF mode. -/
  | pclkRiseHref (cur : Sample)
  /-- Format T, R76: a PCLK edge outside a row, HREF mode. -/
  | pclkRiseBlank (cur : Sample)
  /-- R86 -/
  | rdCtrl
  /-- R87 -/
  | wrCtrl (wdata : Word32)
  /-- R88 -/
  | rdStatus
  /-- R89 -/
  | wrStatus (wdata : Word32)
  /-- R90 -/
  | rdCursor
  /-- R91 -/
  | wrCursor (wdata : Word32)
  /-- R92 -/
  | rdOverrunCount
  /-- R93 -/
  | wrOverrunCount (wdata : Word32)
  /-- R94 -/
  | rdHandoffMissCount
  /-- R95 -/
  | wrHandoffMissCount (wdata : Word32)
  /-- R96 -/
  | rdFrameCount
  /-- R97 -/
  | wrFrameCount (wdata : Word32)
  /-- R98 -/
  | rdGeometry
  /-- R99 -/
  | wrGeometry (wdata : Word32)
  /-- R100 -/
  | rdConfig
  /-- R101 -/
  | wrConfig (wdata : Word32)
  /-- R102 -/
  | rdPins
  /-- R103 -/
  | wrPins (wdata : Word32)
  /-- Format P, R104: read one byte of the ready buffer. -/
  | pixelRead (b : BitVec 1) (r c : Half)
  /-- Format X, R130: the reset step. -/
  | reset
deriving DecidableEq, Repr

/-- The events of the edge detector (R59). -/
inductive Event where
  | vsyncRise
  | hrefFall
  | pclkRiseCount
  | pclkRiseHref
  | pclkRiseBlank
deriving DecidableEq, Repr

/-- The host registers (R41). -/
inductive Reg where
  | ctrl
  | status
  | cursor
  | overrunCount
  | handoffMissCount
  | frameCount
  | geometry
  | config
  | pins
deriving DecidableEq, Repr

/-- A word of one of the five formats (R52). Formats S, H, P and X are what the ports carry; a format T word is formed
inside a sample step from the history sample and the new one. -/
inductive FormatWord where
  /-- A sample vector. -/
  | S (v : Sample)
  /-- `{prev, cur}` (R54). -/
  | T (t : BitVec 22)
  /-- A register-port request: selector and WDATA (R55). -/
  | H (sel : BitVec 16) (wdata : Word32)
  /-- A pixel-port request `{B, ROW, COL}` (R56). -/
  | P (p : BitVec 33)
  /-- The reset input (R57). -/
  | X (rst : BitVec 1)
deriving DecidableEq, Repr

/-- Why a word is no instruction. -/
inductive Reject where
  /-- R61, R85: a selector in no row of R60. -/
  | hostBusError (sel : BitVec 16)
  /-- R61: a format T word that raises no event. -/
  | noEvent (t : BitVec 22)
  /-- R57: only `rst = 1` is a reset step (log entry 11). -/
  | resetNotAsserted
deriving DecidableEq, Repr

end Sys2Proof
end

