-- ==== Sys2Proof/WellFormed.lean ====
section
/-! DEFINITION. Which instructions can be decoded in an instance of a given mode: the mode column and the fixed bits of
the event map, spec/30_encoding.md R59. Every other operand may take every value of its width (R61). -/

namespace Sys2Proof

/-- R59: an event exists only in its mode, and a PCLK event carries a sample in which PCLK is high (bit 8) and, in HREF
mode, HREF (bit 9) is high for `PCLK_RISE_HREF` and low for `PCLK_RISE_BLANK`. -/
def Instr.wf (m : RowAdvance) : Instr → Bool
  | .hrefFall => m == .href
  | .pclkRiseCount cur => m == .count && cur.getLsbD 8
  | .pclkRiseHref cur => m == .href && cur.getLsbD 8 && cur.getLsbD 9
  | .pclkRiseBlank cur => m == .href && cur.getLsbD 8 && !cur.getLsbD 9
  | .sample _ | .vsyncRise | .pixelRead _ _ _ | .reset => true
  | .rdCtrl | .rdStatus | .rdCursor | .rdOverrunCount | .rdHandoffMissCount => true
  | .rdFrameCount | .rdGeometry | .rdConfig | .rdPins => true
  | .wrCtrl _ | .wrStatus _ | .wrCursor _ | .wrOverrunCount _ | .wrHandoffMissCount _ => true
  | .wrFrameCount _ | .wrGeometry _ | .wrConfig _ | .wrPins _ => true

end Sys2Proof
end

