-- ==== Sys2Proof/Decode.lean ====
section
/-! DEFINITION. Decoding the words of the five formats, and the encoder (spec/30_encoding.md). Decoding is total: a word
that is no instruction is rejected by name. -/

namespace Sys2Proof

/-! ## Format S (R53) -/

/-- R53: bit 10 is the VSYNC level. -/
def vsyncLevel (s : Sample) : Bool := s.getLsbD 10

/-- R53, R58: bit 9 is the HREF level. -/
def hrefLevel (s : Sample) : Bool := s.getLsbD 9

/-- R53: bit 8 is the PCLK level. -/
def pclkLevel (s : Sample) : Bool := s.getLsbD 8

/-- R53, R58: bits 7..0 are the data lines, "already the assembled byte". -/
def pixelByte (s : Sample) : Byte := s.extractLsb' 0 8

/-- R53: `enc(v, h, p, d) = {v, h, p, d[7:0]}`. -/
def encSample (v h p : Bool) (d : Byte) : Sample :=
  BitVec.ofBool v ++ BitVec.ofBool h ++ BitVec.ofBool p ++ d

/-- R67: `rise(X) = (prev.X == 0 and cur.X == 1)`, for one level of the two samples. -/
def rise (level : Sample → Bool) (prev cur : Sample) : Bool := !level prev && level cur

/-- R67: `fall(X) = (prev.X == 1 and cur.X == 0)`. -/
def fall (level : Sample → Bool) (prev cur : Sample) : Bool := level prev && !level cur

/-! ## Format T and the event map (R54, R59) -/

/-- R54: `{prev[10:0], cur[10:0]}`. -/
def formatT (prev cur : Sample) : BitVec 22 := prev ++ cur

/-- R54: the history sample stands in bits 21..11. -/
def prevOf (t : BitVec 22) : Sample := t.extractLsb' 11 11

/-- R54: the new sample stands in bits 10..0. -/
def curOf (t : BitVec 22) : Sample := t.extractLsb' 0 11

/-- R59, the mode column. -/
def Event.inMode (m : RowAdvance) : Event → Bool
  | .vsyncRise => true
  | .pclkRiseCount => m == .count
  | .hrefFall | .pclkRiseHref | .pclkRiseBlank => m == .href

/-- R59, the mask column. -/
def Event.mask : Event → BitVec 22
  | .vsyncRise => 0x200400#22
  | .hrefFall => 0x100200#22
  | .pclkRiseCount => 0x080100#22
  | .pclkRiseHref => 0x080300#22
  | .pclkRiseBlank => 0x080300#22

/-- R59, the match column. -/
def Event.pattern : Event → BitVec 22
  | .vsyncRise => 0x000400#22
  | .hrefFall => 0x100000#22
  | .pclkRiseCount => 0x000100#22
  | .pclkRiseHref => 0x000300#22
  | .pclkRiseBlank => 0x000100#22

/-- R59: "A match is (T & mask) == match", and "A row whose mode is not the instance's ROW_ADVANCE never matches". -/
def raises (m : RowAdvance) (t : BitVec 22) (e : Event) : Bool :=
  e.inMode m && t &&& e.mask == e.pattern

/-- The events a word raises, in the order of R68. "The rows are matched independently" (R59). -/
def events (m : RowAdvance) (t : BitVec 22) : List Event :=
  [.vsyncRise, .hrefFall, .pclkRiseCount, .pclkRiseHref, .pclkRiseBlank].filter (raises m t)

/-- The instruction of an event: a PCLK event's operand is the new sample (R58, R74–R76). -/
def Event.toInstr (cur : Sample) : Event → Instr
  | .vsyncRise => .vsyncRise
  | .hrefFall => .hrefFall
  | .pclkRiseCount => .pclkRiseCount cur
  | .pclkRiseHref => .pclkRiseHref cur
  | .pclkRiseBlank => .pclkRiseBlank cur

/-- All the instructions of a format T word, in the order they are processed. -/
def decodeEvents (m : RowAdvance) (t : BitVec 22) : List Instr :=
  (events m t).map (Event.toInstr (curOf t))

/-! ## Format H and the selector map (R41, R55, R60, R85) -/

/-- R41: the offset of a register. -/
def Reg.offset : Reg → BitVec 8
  | .ctrl => 0x00
  | .status => 0x04
  | .cursor => 0x08
  | .overrunCount => 0x0C
  | .handoffMissCount => 0x10
  | .frameCount => 0x14
  | .geometry => 0x18
  | .config => 0x1C
  | .pins => 0x20

/-- The registers of R41. -/
def Reg.all : List Reg :=
  [.ctrl, .status, .cursor, .overrunCount, .handoffMissCount, .frameCount, .geometry, .config, .pins]

/-- The register at an offset (R41). -/
def regAt (off : BitVec 8) : Option Reg :=
  Reg.all.find? (fun r => r.offset == off)

/-- The read of a register (R60). -/
def Reg.readInstr : Reg → Instr
  | .ctrl => .rdCtrl
  | .status => .rdStatus
  | .cursor => .rdCursor
  | .overrunCount => .rdOverrunCount
  | .handoffMissCount => .rdHandoffMissCount
  | .frameCount => .rdFrameCount
  | .geometry => .rdGeometry
  | .config => .rdConfig
  | .pins => .rdPins

/-- The write of a register (R60). -/
def Reg.writeInstr (wdata : Word32) : Reg → Instr
  | .ctrl => .wrCtrl wdata
  | .status => .wrStatus wdata
  | .cursor => .wrCursor wdata
  | .overrunCount => .wrOverrunCount wdata
  | .handoffMissCount => .wrHandoffMissCount wdata
  | .frameCount => .wrFrameCount wdata
  | .geometry => .wrGeometry wdata
  | .config => .wrConfig wdata
  | .pins => .wrPins wdata

/-- R55: bit 15 of the selector, 1 = write. -/
def selWrite (sel : BitVec 16) : Bool := sel.getLsbD 15

/-- R55: bits 14:13, the access size. -/
def selSize (sel : BitVec 16) : BitVec 2 := sel.extractLsb' 13 2

/-- R55: bits 12:8, reserved. -/
def selReserved (sel : BitVec 16) : BitVec 5 := sel.extractLsb' 8 5

/-- R55: bits 7:0, the byte offset. -/
def selOffset (sel : BitVec 16) : BitVec 8 := sel.extractLsb' 0 8

/-- R85: the check that every register-port access goes through, `SZ != 2 or RSV != 0 or OFF[1:0] != 0 or OFF > 0x20`. -/
def selIllegal (sel : BitVec 16) : Bool :=
  selSize sel != 2 || selReserved sel != 0 || (selOffset sel).extractLsb' 0 2 != 0 || (selOffset sel).toNat > 0x20

/-- R85: "run the rule of this file for (W, OFF)". A read ignores WDATA (R55). -/
def decodeReg (sel : BitVec 16) (wdata : Word32) : Except Reject Instr :=
  if selIllegal sel then .error (.hostBusError sel)
  else match regAt (selOffset sel) with
    | some r => .ok (if selWrite sel then r.writeInstr wdata else r.readInstr)
    | none => .error (.hostBusError sel)

/-! ## Formats P and X (R56, R57), and all five -/

/-- R56: bit 32 is the buffer index. -/
def pixBuffer (p : BitVec 33) : BitVec 1 := p.extractLsb' 32 1

/-- R56: bits 31:16 are the row. -/
def pixRow (p : BitVec 33) : Half := p.extractLsb' 16 16

/-- R56: bits 15:0 are the column. -/
def pixCol (p : BitVec 33) : Half := p.extractLsb' 0 16

/-- The instruction of a word in an instance of mode `m`. A format T word that raises several events gives the one
that is processed first (R68); `decodeEvents` gives them all. -/
def decode (m : RowAdvance) : FormatWord → Except Reject Instr
  | .S v => .ok (.sample v)
  | .T t => match decodeEvents m t with
    | i :: _ => .ok i
    | [] => .error (.noEvent t)
  | .H sel wdata => decodeReg sel wdata
  | .P p => .ok (.pixelRead (pixBuffer p) (pixRow p) (pixCol p))
  | .X rst => if rst = 1#1 then .ok .reset else .error .resetNotAsserted

/-! ## The encoder (R53–R57, R59, R60) -/

/-- A format T word that raises exactly the one PCLK event of `cur`: the history sample is `cur` with PCLK low. -/
def pclkWord (cur : Sample) : FormatWord := .T (formatT (cur &&& 0x6FF#11) cur)

/-- The word of an instruction. A read's WDATA is written as 0 (R64); VSYNC_RISE and HREF_FALL have no operand, so their
words are the matches of R59. -/
def encode : Instr → FormatWord
  | .sample s => .S s
  | .vsyncRise => .T 0x000400
  | .hrefFall => .T 0x100000
  | .pclkRiseCount cur => pclkWord cur
  | .pclkRiseHref cur => pclkWord cur
  | .pclkRiseBlank cur => pclkWord cur
  | .rdCtrl => .H 0x4000 0
  | .wrCtrl wdata => .H 0xC000 wdata
  | .rdStatus => .H 0x4004 0
  | .wrStatus wdata => .H 0xC004 wdata
  | .rdCursor => .H 0x4008 0
  | .wrCursor wdata => .H 0xC008 wdata
  | .rdOverrunCount => .H 0x400C 0
  | .wrOverrunCount wdata => .H 0xC00C wdata
  | .rdHandoffMissCount => .H 0x4010 0
  | .wrHandoffMissCount wdata => .H 0xC010 wdata
  | .rdFrameCount => .H 0x4014 0
  | .wrFrameCount wdata => .H 0xC014 wdata
  | .rdGeometry => .H 0x4018 0
  | .wrGeometry wdata => .H 0xC018 wdata
  | .rdConfig => .H 0x401C 0
  | .wrConfig wdata => .H 0xC01C wdata
  | .rdPins => .H 0x4020 0
  | .wrPins wdata => .H 0xC020 wdata
  | .pixelRead b r c => .P (b ++ r ++ c)
  | .reset => .X 1

/-! ## The words of spec/opcode_table.json (log entry 10)

The table numbers the bits of each format from 0 and does not say which port a word comes in on, so the number of bits
tells the formats apart: 8 for X, 16 for S and H, 24 for T, 40 for P, 48 for H with its WDATA. -/

/-- The word of the row whose bits are `w`. Two choices are the model's: in 16 bits a value below 2^11 is a sample vector
(a selector that small has SZ = 0 and is in no row), and 0 in at most 8 bits is PIXEL_READ's word 0, the one row to
which the table gives no bits (RESET's is 1). -/
def tableWord (nbits w : Nat) : FormatWord :=
  if nbits ≤ 8 then (if w = 0 then .P 0 else .X (BitVec.ofNat 1 w))
  else if nbits ≤ 16 then (if w < 2 ^ 11 then .S (BitVec.ofNat 11 w) else .H (BitVec.ofNat 16 w) 0)
  else if nbits ≤ 24 then .T (BitVec.ofNat 22 w)
  else if nbits ≤ 40 then .P (BitVec.ofNat 33 w)
  else .H (BitVec.ofNat 16 w) (BitVec.ofNat 32 (w / 2 ^ 16))

/-- The mode a table word is read in, for the table gives T rows of both modes and the word does not carry the mode:
HREF where HREF is high in one of the two samples, else the default COUNT (R9). -/
def tableMode : FormatWord → RowAdvance
  | .T t => if hrefLevel (prevOf t) || hrefLevel (curOf t) then .href else .count
  | .S _ | .H _ _ | .P _ | .X _ => .count

/-- The instruction the decoder reads from a table word. -/
def decodeTableWord (nbits w : Nat) : Option Instr :=
  match decode (tableMode (tableWord nbits w)) (tableWord nbits w) with
  | .ok i => some i
  | .error _ => none

end Sys2Proof
end

