-- ==== Sys2Proof/Machine/State.lean ====
section
/-! DEFINITION. The machine's state as plain data: the block's elements, exactly those of spec/10_state.md R16, beside
the instance's parameters and the inputs and outputs of steps. -/

namespace Sys2Proof.Machine

/-- The frame-buffer cells that a pixel event has written, as (key, byte) pairs. A cell that is not listed holds the
unknown value of R36. The key of `FB[b][r][c]` is the 33-bit value `{b, r, c}` (log entry 6). -/
abbrev Memory := List Host.Cell

/-- R16: "The block's state is exactly these elements. No other element exists". -/
structure Block where
  /-- R19 -/
  row : Half
  /-- R20 -/
  col : Half
  /-- R21 -/
  active : BitVec 1
  /-- R23 -/
  ready : Bool
  /-- R24 -/
  rowLenErr : Bool
  /-- R27 -/
  ctrlPclkEn : Bool
  /-- R27 -/
  ctrlVsyncEn : Bool
  /-- R27 -/
  ctrlIrqEn : Bool
  /-- R28 -/
  overrunCount : Word32
  /-- R29 -/
  handoffMissCount : Word32
  /-- R30 -/
  frameCount : Word32
  /-- R26 -/
  prev : Sample
  /-- R26 -/
  primed : Bool
  /-- `FB[0]` and `FB[1]`, R33, R34, R36. -/
  fb : Memory
deriving DecidableEq, Repr

/-- The reset values of R16, with frame buffers `fb`: reset leaves the buffers as they are (R130). -/
def Block.afterReset (fb : Memory) : Block where
  row := 0
  col := 0
  active := 0
  ready := false
  rowLenErr := false
  ctrlPclkEn := false
  ctrlVsyncEn := false
  ctrlIrqEn := false
  overrunCount := 0
  handoffMissCount := 0
  frameCount := 0
  prev := 0
  primed := false
  fb := fb

/-- The conditions of R108, with the information their `raise` gives. -/
inductive Condition where
  | captureOverrun (row col : Half)
  | handoffMiss (frameCount : Word32)
  | rowLengthMismatch (row col : Half)
  | hostBusError (sel : BitVec 16)
  | pixelRangeError (b : BitVec 1) (r c : Half)
  | activeBufferRead (b : BitVec 1) (r c : Half)
  | configInvalid (rows cols rowAdvance : Nat)
deriving DecidableEq, Repr

/-- An entry of the step's event history (R117): an event that was run, or a condition that was raised. -/
inductive Record where
  | event (e : Event)
  | condition (c : Condition)
deriving DecidableEq, Repr

/-- R55: the register port's `resp`. -/
inductive Resp where
  | ok
  | err
deriving DecidableEq, Repr

/-- R56: the pixel port's `presp`. -/
inductive PResp where
  | ok
  | errRange
  | errActive
deriving DecidableEq, Repr

/-- The response to a host access: `(resp, rdata)` (R55) or `(presp, pdata)` (R56). -/
inductive Response where
  | reg (resp : Resp) (rdata : Word32)
  | pix (presp : PResp) (pdata : Byte)
deriving DecidableEq, Repr

/-- A request on one of the two host ports (R14, R55, R56). -/
inductive HostRequest where
  | reg (sel : BitVec 16) (wdata : Word32)
  | pix (p : BitVec 33)
deriving DecidableEq, Repr

/-- What the agents present at one instant (R14, R120): the reset input, one host request, one sample vector. A lone
sample is an instant with nothing else, so a list of instants is any interleaving (log entries 1, 2). -/
structure Instant where
  rst : Bool
  host : Option HostRequest
  sample : Option Sample
deriving DecidableEq, Repr

/-- The whole machine. -/
structure State where
  /-- The block (R16). -/
  blk : Block
  /-- The instance's parameters, which no step changes (R32; log entry 3). -/
  cfg : Config
  /-- Which power-on this run follows: it makes the bytes of unwritten cells free. The model's own (log entry 5). -/
  powerOnIndex : Nat
  /-- Inputs presented and not yet taken, the next one first. The model's own (log entry 1). -/
  pending : List Instant
  /-- The response of the last step, if it gave one. The model's own (log entry 8). -/
  response : Option Response
  /-- The event history of the last step, oldest first (R117). The model's own (log entry 8). -/
  history : List Record
deriving DecidableEq, Repr

/-- The machine after power-on, the reset step with every cell unknown (R131). 480 and 640 are the numbers of R98's
example, a DESIGN CHOICE: the spec leaves ROWS and COLS open (log entry 3). -/
def State.reset : State where
  blk := Block.afterReset []
  cfg := { rows := 480, cols := 640, rowAdvance := .count }
  powerOnIndex := 0
  pending := []
  response := none
  history := []

/-- Why the machine stops. -/
inductive Fault where
  /-- Raised by the buffer write of a pixel event at an index outside the frame-buffer space (R33). Safe: the rules
  keep the cursor inside (R22, R80), so only a state that no run reaches asks for it (log entry 7). -/
  | cellOutOfRange (b : BitVec 1) (r c : Half)
deriving DecidableEq, Repr

/-- Why there is no meaning. -/
inductive Refusal where
  /-- Raised by an arm of exec for an instruction that has no meaning yet; no arm does. Safe. -/
  | notModelled (mnemonic : String)
  /-- CONFIG_INVALID, raised by the step and by `powerOn` for parameters outside R8's range: "no machine exists for
  that configuration" (R115, R117). Safe: it is the spec's own refusal (log entry 4). -/
  | configInvalid
deriving DecidableEq, Repr

/-- The three outcomes of a step, for this machine. -/
abbrev Result := Host.Outcome State Fault Refusal

end Sys2Proof.Machine
end

