-- ==== Sys2Proof/Machine/Ops.lean ====
section
/-! DEFINITION. The named operations over the state: sequencing, the history and the responses, the frame-buffer space,
the counters. -/

namespace Sys2Proof.Machine

/-! ## Sequencing (R13: "each line sees the writes of the lines before it") -/

/-- Run `f` on the next state of `r`; a stop stays a stop. -/
def andThen (r : Result) (f : State → Result) : Result :=
  match r with
  | .next s => f s
  | .fault e => .fault e
  | .refused e => .refused e

/-- `if c: f()` of the pseudocode. -/
def runIf (c : Bool) (f : State → Result) (s : State) : Result :=
  if c then f s else .next s

/-! ## The named updates -/

/-- Replace the block. -/
def State.setBlk (s : State) (b : Block) : State := { s with blk := b }

/-- Append an entry to the step's event history (R117). -/
def State.record (s : State) (r : Record) : State := { s with history := s.history ++ [r] }

/-- `raise <Condition>(info)`, the one way a condition is taken: it is recorded, and it is never a control transfer
(R13, R107, R117, R121). What the hardware records besides stands in the rule that raises it (R108). -/
def State.raise (s : State) (c : Condition) : State := s.record (.condition c)

/-- `respond(resp, data)` (R13). -/
def State.respond (s : State) (r : Response) : State := { s with response := some r }

/-- `respond(OK, data)` of the register port. -/
def State.respondOk (s : State) (data : Word32) : State := s.respond (.reg .ok data)

/-! ## The codes of the conditions (R108) -/

/-- R108, the code column. -/
def Condition.code : Condition → Nat
  | .captureOverrun _ _ => 1
  | .handoffMiss _ => 2
  | .rowLengthMismatch _ _ => 3
  | .hostBusError _ => 4
  | .pixelRangeError _ _ _ => 5
  | .activeBufferRead _ _ _ => 6
  | .configInvalid _ _ _ => 7

/-! ## Memory: strictly rising keys, so that equal memories are equal lists -/

/-- The byte listed at a key; `none` is the unknown value of R36. -/
def Memory.read : Memory → Nat → Option Byte
  | [], _ => none
  | (a, v) :: m, k => if a = k then some v else Memory.read m k

/-- Write one byte. -/
def Memory.write : Memory → Nat → Byte → Memory
  | [], k, v => [(k, v)]
  | (a, w) :: m, k, v =>
    if k < a then (k, v) :: (a, w) :: m
    else if k = a then (k, v) :: m
    else (a, w) :: Memory.write m k v

/-- The canonical form: keys strictly rising. An unlisted cell reads as no byte at all, so no entry can equal it. -/
def Memory.wf : Memory → Bool
  | [] => true
  | [_] => true
  | (a, _) :: (b, w) :: m => a < b && Memory.wf ((b, w) :: m)

/-! ## The frame-buffer space (R33) -/

/-- The key of `FB[b][r][c]`: the pixel port's own name for the cell, `{B, ROW, COL}` (R56; log entry 6). -/
def cellKey (b : BitVec 1) (r c : Half) : Nat := (b ++ r ++ c).toNat

/-- R33: `r` in `0..ROWS-1` and `c` in `0..COLS-1`. -/
def inSpace (cfg : Config) (r c : Half) : Bool := r.toNat < cfg.rows && c.toNat < cfg.cols

/-- R35: where an implementation stores a buffer linearly, the offset of a cell from the buffer's start. -/
def linearOffset (cfg : Config) (r c : Nat) : Nat := r * cfg.cols + c

/-- `BufRead(b, r, c)` (R13); `none` is the unknown value. -/
def bufRead (s : State) (b : BitVec 1) (r c : Half) : Option Byte := s.blk.fb.read (cellKey b r c)

/-- The byte a cell holds: the one written last, or the free byte of a cell that no step has written since power-on
(R36, U2: "the cell holds one unknown value"). -/
def cellByte (s : State) (b : BitVec 1) (r c : Half) : Byte :=
  match bufRead s b r c with
  | some v => v
  | none => Config.unwrittenByte s.powerOnIndex (cellKey b r c)

/-- `BufWrite(b, r, c, v)` (R13). An index outside the space of R33 names no cell: a fault (log entry 7). -/
def bufWrite (s : State) (b : BitVec 1) (r c : Half) (v : Byte) : Result :=
  if inSpace s.cfg r c then .next (s.setBlk { s.blk with fb := s.blk.fb.write (cellKey b r c) v })
  else .fault (.cellOutOfRange b r c)

/-! ## The counters -/

/-- R12: `sat32(x)` is `min(x, 0xFFFFFFFF)`. -/
def sat32 (x : Nat) : Word32 := BitVec.ofNat 32 (min x 0xFFFFFFFF)

/-- R108, code 1: count a dropped pixel and raise CAPTURE_OVERRUN at the cursor. -/
def captureOverrun (s : State) : State :=
  (s.setBlk { s.blk with overrunCount := sat32 (s.blk.overrunCount.toNat + 1) }).raise
    (.captureOverrun s.blk.row s.blk.col)

/-- R108, code 2: count an unacknowledged frame and raise HANDOFF_MISS. -/
def handoffMiss (s : State) : State :=
  (s.setBlk { s.blk with handoffMissCount := sat32 (s.blk.handoffMissCount.toNat + 1) }).raise
    (.handoffMiss s.blk.frameCount)

/-- R108, code 3: set the sticky flag and raise ROW_LENGTH_MISMATCH at the cursor. -/
def rowLengthMismatch (s : State) : State :=
  (s.setBlk { s.blk with rowLenErr := true }).raise (.rowLengthMismatch s.blk.row s.blk.col)

/-- R108, code 4, R85, R112: `respond(ERR, 0)`, no change of the block. -/
def hostBusError (sel : BitVec 16) (s : State) : State :=
  (s.raise (.hostBusError sel)).respond (.reg .err 0)

end Sys2Proof.Machine
end

