-- ==== Sys2Proof/Machine/Operands.lean ====
section
/-! DEFINITION. Operand assembly (spec/30_encoding.md R58) and byte assembly (spec/40_sampler_and_edges.md R69). The fields
of the formats themselves stand in Sys2Proof/Decode.lean. -/

namespace Sys2Proof.Machine

/-- R69: `{D7, D6, D5, D4, D3, D2, D1, D0}`, a pure function of the eight data lines. In format S the lines stand in this
order, so the byte of a sample is `pixelByte`. -/
def assemble (d7 d6 d5 d4 d3 d2 d1 d0 : Bool) : Byte :=
  BitVec.ofBool d7 ++ BitVec.ofBool d6 ++ BitVec.ofBool d5 ++ BitVec.ofBool d4 ++
    BitVec.ofBool d3 ++ BitVec.ofBool d2 ++ BitVec.ofBool d1 ++ BitVec.ofBool d0

/-- R12: `zext_32(v)`. -/
def zext32 {n : Nat} (v : BitVec n) : Word32 := v.zeroExtend 32

/-- R19, R58: the row counter against ROWS, as unsigned integers; `row >= ROWS` is the clamped state (R22). -/
def rowDone (s : State) : Bool := s.blk.row.toNat ≥ s.cfg.rows

/-- R20: the column counter has reached COLS: in HREF mode the row is full. -/
def colDone (s : State) : Bool := s.blk.col.toNat ≥ s.cfg.cols

/-- R74: `col + 1 == COLS`, "compared as integers, no 16-bit wrap". -/
def colLast (s : State) : Bool := s.blk.col.toNat + 1 == s.cfg.cols

end Sys2Proof.Machine
end

