-- ==== Sys2Proof/Machine/Flags.lean ====
section
/-! DEFINITION. The flags a host can observe (spec/10_state.md R22, R25, R31) and the layouts of the host registers
(spec/43_host_port.md R86–R102). -/

namespace Sys2Proof.Machine

/-- R22: `clamped` is the predicate `row >= ROWS`, derived whenever it is read. -/
def State.clamped (s : State) : Bool := rowDone s

/-- R31, R119: "at every instant, frame_irq = ready and ctrl_irq_en", a level output. -/
def State.frameIrq (s : State) : Bool := s.blk.ready && s.blk.ctrlIrqEn

/-- CTRL (R86): `zext_32({ctrl_irq_en, ctrl_vsync_en, ctrl_pclk_en})`. -/
def ctrlWord (s : State) : Word32 :=
  zext32 (BitVec.ofBool s.blk.ctrlIrqEn ++ BitVec.ofBool s.blk.ctrlVsyncEn ++ BitVec.ofBool s.blk.ctrlPclkEn)

/-- STATUS (R88): `zext_32({primed, row_len_err, (row >= ROWS), ready, active})`. -/
def statusWord (s : State) : Word32 :=
  zext32 (BitVec.ofBool s.blk.primed ++ BitVec.ofBool s.blk.rowLenErr ++ BitVec.ofBool s.clamped ++
    BitVec.ofBool s.blk.ready ++ s.blk.active)

/-- CURSOR (R90): `{row[15:0], col[15:0]}`. -/
def cursorWord (s : State) : Word32 := s.blk.row ++ s.blk.col

/-- GEOMETRY (R98): `{ROWS[15:0], COLS[15:0]}`. -/
def geometryWord (s : State) : Word32 := BitVec.ofNat 16 s.cfg.rows ++ BitVec.ofNat 16 s.cfg.cols

/-- CONFIG (R100): `zext_32(ROW_ADVANCE == HREF ? 1 : 0)`. -/
def configWord (s : State) : Word32 :=
  match s.cfg.rowAdvance with
  | .count => 0
  | .href => 1

/-- PINS (R102): `zext_32(prev)`. -/
def pinsWord (s : State) : Word32 := zext32 s.blk.prev

end Sys2Proof.Machine
end

