-- ==== Sys2Proof/Machine/HostPort.lean ====
section
/-! DEFINITION. The eighteen register-port accesses, spec/43_host_port.md R86–R103. The check that comes before them (R85) is
the decoder's, and what a selector that fails it gets is `hostBusError`. A read has no side effect (R40). -/

namespace Sys2Proof.Machine

/-- RD_CTRL, R86. -/
def execRdCtrl (s : State) : Result := .next (s.respondOk (ctrlWord s))

/-- WR_CTRL, R87: wdata bits 0, 1 and 2 are the enables, bits 31:3 are ignored. -/
def execWrCtrl (wdata : Word32) (s : State) : Result :=
  .next ((s.setBlk { s.blk with
      ctrlPclkEn := wdata.getLsbD 0, ctrlVsyncEn := wdata.getLsbD 1, ctrlIrqEn := wdata.getLsbD 2 }).respondOk 0)

/-- RD_STATUS, R88. -/
def execRdStatus (s : State) : Result := .next (s.respondOk (statusWord s))

/-- WR_STATUS, R89: each W1C bit is cleared where its write-data bit is 1, the other bits are ignored. -/
def execWrStatus (wdata : Word32) (s : State) : Result :=
  .next ((s.setBlk { s.blk with
      ready := s.blk.ready && !wdata.getLsbD 1, rowLenErr := s.blk.rowLenErr && !wdata.getLsbD 3 }).respondOk 0)

/-- RD_CURSOR, R90. -/
def execRdCursor (s : State) : Result := .next (s.respondOk (cursorWord s))

/-- WR_CURSOR, R91: ignored, `respond(OK, 0)`. -/
def execWrCursor (_wdata : Word32) (s : State) : Result :=
  .next (s.respondOk 0)

/-- RD_OVERRUN_COUNT, R92. -/
def execRdOverrunCount (s : State) : Result := .next (s.respondOk s.blk.overrunCount)

/-- WR_OVERRUN_COUNT, R93: any wdata clears the counter. -/
def execWrOverrunCount (_wdata : Word32) (s : State) : Result :=
  .next ((s.setBlk { s.blk with overrunCount := 0 }).respondOk 0)

/-- RD_HANDOFF_MISS_COUNT, R94. -/
def execRdHandoffMissCount (s : State) : Result := .next (s.respondOk s.blk.handoffMissCount)

/-- WR_HANDOFF_MISS_COUNT, R95: any wdata clears the counter. -/
def execWrHandoffMissCount (_wdata : Word32) (s : State) : Result :=
  .next ((s.setBlk { s.blk with handoffMissCount := 0 }).respondOk 0)

/-- RD_FRAME_COUNT, R96. -/
def execRdFrameCount (s : State) : Result := .next (s.respondOk s.blk.frameCount)

/-- WR_FRAME_COUNT, R97: ignored, `respond(OK, 0)`. -/
def execWrFrameCount (_wdata : Word32) (s : State) : Result :=
  .next (s.respondOk 0)

/-- RD_GEOMETRY, R98. -/
def execRdGeometry (s : State) : Result := .next (s.respondOk (geometryWord s))

/-- WR_GEOMETRY, R99: ignored, `respond(OK, 0)`. -/
def execWrGeometry (_wdata : Word32) (s : State) : Result :=
  .next (s.respondOk 0)

/-- RD_CONFIG, R100. -/
def execRdConfig (s : State) : Result := .next (s.respondOk (configWord s))

/-- WR_CONFIG, R101: ignored, `respond(OK, 0)`. -/
def execWrConfig (_wdata : Word32) (s : State) : Result :=
  .next (s.respondOk 0)

/-- RD_PINS, R102. -/
def execRdPins (s : State) : Result := .next (s.respondOk (pinsWord s))

/-- WR_PINS, R103: ignored, `respond(OK, 0)`. -/
def execWrPins (_wdata : Word32) (s : State) : Result :=
  .next (s.respondOk 0)

end Sys2Proof.Machine
end

