-- ==== Sys2Proof/Machine/PixelPort.lean ====
section
/-! DEFINITION. The pixel read port, spec/43_host_port.md R104. -/

namespace Sys2Proof.Machine

/-- PIXEL_READ, R104: the range is checked before the buffer (R113, R120). A cell that no step has written answers OK with
its free byte (U2; log entry 5). -/
def execPixelRead (b : BitVec 1) (r c : Half) (s : State) : Result :=
  if !inSpace s.cfg r c then .next ((s.raise (.pixelRangeError b r c)).respond (.pix .errRange 0))
  else if b = s.blk.active then .next ((s.raise (.activeBufferRead b r c)).respond (.pix .errActive 0))
  else .next (s.respond (.pix .ok (cellByte s b r c)))

end Sys2Proof.Machine
end

