-- ==== Sys2Proof/Machine/Reset.lean ====
section
/-! DEFINITION. The reset step, spec/70_reset_and_hazards.md R130, and building an instance (R115, R131). -/

namespace Sys2Proof.Machine

/-- RESET, R130: every register to its reset value; the frame buffers and the configuration stay (R132). -/
def execReset (s : State) : Result := .next (s.setBlk (Block.afterReset s.blk.fb))

/-- The mode a `ROW_ADVANCE` parameter names, numbered as CONFIG reads it (R100): every other number names none. -/
def rowAdvanceOf : Nat → Option RowAdvance
  | 0 => some .count
  | 1 => some .href
  | _ => none

/-- Elaboration (R115): parameters outside R8's and R9's ranges are CONFIG_INVALID. -/
def elaborate (rows cols rowAdvance : Nat) : Except Condition Config :=
  match rowAdvanceOf rowAdvance with
  | some m =>
    let cfg : Config := { rows := rows, cols := cols, rowAdvance := m }
    if cfg.valid then .ok cfg else .error (.configInvalid rows cols rowAdvance)
  | none => .error (.configInvalid rows cols rowAdvance)

/-- Power-on of an instance (R131), the `index`-th: a machine is built only for legal parameters (R115). -/
def powerOn (rows cols rowAdvance index : Nat) : Result :=
  match elaborate rows cols rowAdvance with
  | .ok cfg => .next { State.reset with cfg := cfg, powerOnIndex := index }
  | .error _ => .refused .configInvalid

end Sys2Proof.Machine
end

