-- ==== Sys2Proof/Machine/FrameSync.lean ====
section
/-! DEFINITION. The frame-sync and row-sync events, spec/42_frame_sync.md R81, R82. -/

namespace Sys2Proof.Machine

/-- R81, the cursor reset and the swap. -/
def swapBuffers (s : State) : State :=
  s.setBlk { s.blk with row := 0, col := 0, active := 1 - s.blk.active }

/-- R81, after the miss check: the finished frame is ready, and it is counted modulo 2^32. -/
def exposeFrame (s : State) : State :=
  s.setBlk { s.blk with ready := true, frameCount := s.blk.frameCount + 1 }

/-- VSYNC_RISE, R81. -/
def execVsyncRise (s : State) : Result :=
  let s := swapBuffers (s.record (.event .vsyncRise))
  .next (exposeFrame (if s.blk.ready then handoffMiss s else s))

/-- R82: `row <- row + 1; col <- 0`. -/
def advanceRow (s : State) : State :=
  s.setBlk { s.blk with row := s.blk.row + 1, col := 0 }

/-- HREF_FALL, R82. -/
def execHrefFall (s : State) : Result :=
  let s := s.record (.event .hrefFall)
  if rowDone s then .next s
  else .next (advanceRow (if s.blk.col.toNat ≠ s.cfg.cols then rowLengthMismatch s else s))

end Sys2Proof.Machine
end

