-- ==== Sys2Proof/Machine/PixelWrite.lean ====
section
/-! DEFINITION. The pixel-clock events, spec/41_pixel_write.md R74–R76. Which of them a sample raises, and the enable that
gates them, stand in the sample step (log entry 12). -/

namespace Sys2Proof.Machine

/-- R74, after the write: advance the cursor by count, wrapping at COLS. -/
def advanceByCount (s : State) : State :=
  if colLast s then s.setBlk { s.blk with col := 0, row := s.blk.row + 1 }
  else s.setBlk { s.blk with col := s.blk.col + 1 }

/-- R75, after the write: the column advances, the row never does. -/
def advanceCol (s : State) : State := s.setBlk { s.blk with col := s.blk.col + 1 }

/-- `BufWrite(active, row, col, d)` of R74 and R75, and then the advance of the cursor. -/
def writePixel (cur : Sample) (advance : State → State) (s : State) : Result :=
  andThen (bufWrite s s.blk.active s.blk.row s.blk.col (pixelByte cur)) fun t => .next (advance t)

/-- PCLK_RISE_COUNT, R74. -/
def execPclkRiseCount (cur : Sample) (s : State) : Result :=
  let s := s.record (.event .pclkRiseCount)
  if rowDone s then .next (captureOverrun s)
  else writePixel cur advanceByCount s

/-- PCLK_RISE_HREF, R75. On the row-too-long path CAPTURE_OVERRUN is raised before ROW_LENGTH_MISMATCH. -/
def execPclkRiseHref (cur : Sample) (s : State) : Result :=
  let s := s.record (.event .pclkRiseHref)
  if rowDone s then .next (captureOverrun s)
  else if colDone s then .next (rowLengthMismatch (captureOverrun s))
  else writePixel cur advanceCol s

/-- PCLK_RISE_BLANK, R76: `skip`. -/
def execPclkRiseBlank (_cur : Sample) (s : State) : Result :=
  .next (s.record (.event .pclkRiseBlank))

end Sys2Proof.Machine
end

