-- ==== Sys2Proof/Machine/Sampler.lean ====
section
/-! DEFINITION. The sample step, spec/40_sampler_and_edges.md R66. -/

namespace Sys2Proof.Machine

/-- R66, the history update of every sample step; the first one also primes the detector (R26). -/
def takeSample (cur : Sample) (s : State) : State :=
  s.setBlk { s.blk with prev := cur, primed := true }

/-- SAMPLE, R66. The word the events are decoded from is `{prev, cur}` of the start of the step; the calls run in the
order of R68, each on the state the one before left. No event writes an enable, so an enable is read at the start. -/
def execSample (cur : Sample) (s : State) : Result :=
  if !s.blk.primed then .next (takeSample cur s)
  else
    let raised := raises s.cfg.rowAdvance (formatT s.blk.prev cur)
    andThen (runIf (raised .vsyncRise && s.blk.ctrlVsyncEn) execVsyncRise s) fun s1 =>
    andThen (runIf (raised .hrefFall && s.blk.ctrlPclkEn) execHrefFall s1) fun s2 =>
    andThen (runIf (raised .pclkRiseCount && s.blk.ctrlPclkEn) (execPclkRiseCount cur) s2) fun s3 =>
    andThen (runIf (raised .pclkRiseHref && s.blk.ctrlPclkEn) (execPclkRiseHref cur) s3) fun s4 =>
    andThen (runIf (raised .pclkRiseBlank && s.blk.ctrlPclkEn) (execPclkRiseBlank cur) s4) fun s5 =>
    .next (takeSample cur s5)

end Sys2Proof.Machine
end

