-- ==== Sys2Proof/Machine/Dispatch.lean ====
section
/-! DEFINITION. The dispatch: one arm per constructor of Instr, each one direct call of its meaning. -/

namespace Sys2Proof.Machine

def exec (i : Instr) (s : State) : Host.Outcome State Fault Refusal :=
  match i with
  | .sample s11 => Sys2Proof.Machine.execSample s11 s
  | .vsyncRise => Sys2Proof.Machine.execVsyncRise s
  | .hrefFall => Sys2Proof.Machine.execHrefFall s
  | .pclkRiseCount cur => Sys2Proof.Machine.execPclkRiseCount cur s
  | .pclkRiseHref cur => Sys2Proof.Machine.execPclkRiseHref cur s
  | .pclkRiseBlank cur => Sys2Proof.Machine.execPclkRiseBlank cur s
  | .rdCtrl => Sys2Proof.Machine.execRdCtrl s
  | .wrCtrl wdata => Sys2Proof.Machine.execWrCtrl wdata s
  | .rdStatus => Sys2Proof.Machine.execRdStatus s
  | .wrStatus wdata => Sys2Proof.Machine.execWrStatus wdata s
  | .rdCursor => Sys2Proof.Machine.execRdCursor s
  | .wrCursor wdata => Sys2Proof.Machine.execWrCursor wdata s
  | .rdOverrunCount => Sys2Proof.Machine.execRdOverrunCount s
  | .wrOverrunCount wdata => Sys2Proof.Machine.execWrOverrunCount wdata s
  | .rdHandoffMissCount => Sys2Proof.Machine.execRdHandoffMissCount s
  | .wrHandoffMissCount wdata => Sys2Proof.Machine.execWrHandoffMissCount wdata s
  | .rdFrameCount => Sys2Proof.Machine.execRdFrameCount s
  | .wrFrameCount wdata => Sys2Proof.Machine.execWrFrameCount wdata s
  | .rdGeometry => Sys2Proof.Machine.execRdGeometry s
  | .wrGeometry wdata => Sys2Proof.Machine.execWrGeometry wdata s
  | .rdConfig => Sys2Proof.Machine.execRdConfig s
  | .wrConfig wdata => Sys2Proof.Machine.execWrConfig wdata s
  | .rdPins => Sys2Proof.Machine.execRdPins s
  | .wrPins wdata => Sys2Proof.Machine.execWrPins wdata s
  | .pixelRead b r c => Sys2Proof.Machine.execPixelRead b r c s
  | .reset => Sys2Proof.Machine.execReset s

end Sys2Proof.Machine
end

