-- ==== Sys2Proof/Machine/Fetch.lean ====
section
/-! DEFINITION. Taking the next input (spec/00_scope.md R14, spec/60_exceptions.md R120), and what a word that is no
instruction does. -/

namespace Sys2Proof.Machine

/-- The word of a host request. -/
def HostRequest.word : HostRequest → FormatWord
  | .reg sel wdata => .H sel wdata
  | .pix p => .P p

/-- A lone word, as an instant. A format T word comes in on no port (R52): what can be presented is its new sample. -/
def wordInstant : FormatWord → Instant
  | .S v => { rst := false, host := none, sample := some v }
  | .T t => { rst := false, host := none, sample := some (curOf t) }
  | .H sel wdata => { rst := false, host := some (.reg sel wdata), sample := none }
  | .P p => { rst := false, host := some (.pix p), sample := none }
  | .X rst => { rst := rst == 1#1, host := none, sample := none }

/-- The responses and the history are those of one step: a step starts without them (log entry 8). -/
def State.begin (s : State) (pending : List Instant) : State :=
  { s with pending := pending, response := none, history := [] }

/-- What is left of an instant when its host request has been taken. -/
def afterHost (i : Instant) (rest : List Instant) : List Instant :=
  match i.sample with
  | some _ => { i with host := none } :: rest
  | none => rest

/-- The next word on a port, and the state the step starts from. Of what stands in one instant, reset wins and the rest
is discarded with no response (R120.6, R130); a host access goes before a sample (R120.5). Nothing presented: no word. -/
def fetch (s : State) : Option FormatWord × State :=
  match s.pending with
  | [] => (none, s.begin [])
  | i :: rest =>
    if i.rst then (some (.X 1), s.begin rest)
    else match i.host with
      | some h => (some h.word, s.begin (afterHost i rest))
      | none => match i.sample with
        | some v => (some (.S v), s.begin rest)
        | none => (none, s.begin rest)

/-- What a word that is no instruction does: a bad selector is answered `(ERR, 0)` (R85); a word that raises no event and
a reset input at 0 do nothing (R57, R61). -/
def rejectWord (e : Reject) (s : State) : State :=
  match e with
  | .hostBusError sel => hostBusError sel s
  | .noEvent _ => s
  | .resetNotAsserted => s

end Sys2Proof.Machine
end

