-- ==== Sys2Proof/Machine/Step.lean ====
section
/-! DEFINITION. One step of the machine, and placing an opcode-table word where the next step takes it. -/

namespace Sys2Proof.Machine

/-- One atomic step (R13, R46): take the next input, decode it, run it. With nothing presented the block waits (R133).
There is no machine for illegal parameters (R115, R117). -/
def step (s : State) : Host.Outcome State Fault Refusal :=
  if !s.cfg.valid then .refused .configInvalid
  else match fetch s with
    | (none, t) => .next t
    | (some w, t) => match decode t.cfg.rowAdvance w with
      | .ok i => exec i t
      | .error e => .next (rejectWord e t)

/-- Present a lone word as the next one to be taken. A format T word comes in on no port: its event is raised by a
sample step, so the history sample, the priming and the enables of R66 are set and the new sample is presented, in an
instance whose mode has the row (log entry 10). -/
def State.presentWord (s : State) (w : FormatWord) : State :=
  let s := { s with pending := wordInstant w :: s.pending }
  match w with
  | .T t =>
    { s with
      cfg := { s.cfg with rowAdvance := tableMode w }
      blk := { s.blk with prev := prevOf t, primed := true, ctrlPclkEn := true, ctrlVsyncEn := true } }
  | .S _ | .H _ _ | .P _ | .X _ => s

/-- The opcode-table word `w`, presented so that the very next step runs it (log entry 10). -/
def State.withFetchWord (s : State) (nbits w : Nat) : State := s.presentWord (tableWord nbits w)

end Sys2Proof.Machine
end

