-- ==== Sys2Proof/Machine/Script.lean ====
section
/-! DEFINITION. The stimulus script, the spec's assembly language (spec/30_encoding.md R64, R65): its statements, its
assembler and its text form (log entry 14). -/

namespace Sys2Proof.Machine

/-- The statements of R64, and the pseudo-statements of R65. Operands are the numbers as written: whether one fits its
field is the assembler's check. -/
inductive Stmt where
  | sample (v11 : Nat)
  | host (sel16 wdata32 : Nat)
  | rd (r : Reg)
  | wr (r : Reg) (wdata32 : Nat)
  | pix (b row col : Nat)
  | reset
  | pclk (d8 : Nat)
  | vsync
  | hrefHi
  | hrefLo
  | idle
  | enable
  | enableIrq
  | disable
  | ack
deriving DecidableEq, Repr

/-- R65: the two values the assembler holds, "both 0 at the start of a script". -/
structure Held where
  /-- `Hh` -/
  href : Bool
  /-- `Dh` -/
  data : Byte
deriving DecidableEq, Repr

/-- The values at the start of a script (R65). -/
def Held.start : Held := { href := false, data := 0 }

/-- R64: "An assembler rejects a statement with an operand that does not fit its field". -/
def field (n v : Nat) : Option (BitVec n) := if v < 2 ^ n then some (BitVec.ofNat n v) else none

/-- R64: `0x4000 + off(reg)`. -/
def readSel (r : Reg) : BitVec 16 := 0x4000 + r.offset.zeroExtend 16

/-- R64: `0xC000 + off(reg)`. -/
def writeSel (r : Reg) : BitVec 16 := 0xC000 + r.offset.zeroExtend 16

/-- One statement: its words (R64) or its expansion (R65), and the held values after it. -/
def Stmt.assemble (h : Held) : Stmt → Option (List FormatWord × Held)
  | .sample v => (field 11 v).map fun v => ([.S v], h)
  | .host sel wdata => do return ([.H (← field 16 sel) (← field 32 wdata)], h)
  | .rd r => some ([.H (readSel r) 0], h)
  | .wr r wdata => (field 32 wdata).map fun w => ([.H (writeSel r) w], h)
  | .pix b row col => do return ([.P ((← field 1 b) ++ (← field 16 row) ++ (← field 16 col))], h)
  | .reset => some ([.X 1], h)
  | .pclk d => (field 8 d).map fun d =>
      ([.S (encSample false h.href false d), .S (encSample false h.href true d)], { h with data := d })
  | .vsync => some ([.S (encSample true h.href false h.data), .S (encSample false h.href false h.data)], h)
  | .hrefHi => some ([.S (encSample false true false h.data)], { h with href := true })
  | .hrefLo => some ([.S (encSample false false false h.data)], { h with href := false })
  | .idle => some ([.S (encSample false h.href false h.data)], h)
  | .enable => some ([.H (writeSel .ctrl) 0x3], h)
  | .enableIrq => some ([.H (writeSel .ctrl) 0x7], h)
  | .disable => some ([.H (writeSel .ctrl) 0x0], h)
  | .ack => some ([.H (writeSel .status) 0x2], h)

/-- A script from given held values: its words in order, or `none` where a statement is rejected. -/
def assembleFrom (h : Held) : List Stmt → Option (List FormatWord)
  | [] => some []
  | st :: rest =>
    match st.assemble h with
    | none => none
    | some (ws, h') => (assembleFrom h' rest).map (ws ++ ·)

/-- A whole script (R65: the held values start at 0, and RESET does not clear them). -/
def assembleScript (sts : List Stmt) : Option (List FormatWord) := assembleFrom Held.start sts

/-- Present the words of a script after what is already pending, each at an instant of its own (R64: "each one is one
step"). -/
def State.load (s : State) (ws : List FormatWord) : State :=
  { s with pending := s.pending ++ ws.map wordInstant }

/-! ## The text form (R64) -/

/-- The value of a digit in a given base, at most 16. -/
def digit (base : Nat) (c : Char) : Option Nat :=
  let n := c.toNat
  let v := if 48 ≤ n ∧ n ≤ 57 then n - 48 else if 97 ≤ n ∧ n ≤ 102 then n - 87 else if 65 ≤ n ∧ n ≤ 70 then n - 55 else 16
  if v < base then some v else none

/-- Digits from the left, after the value read so far. -/
def digits (base acc : Nat) : List Char → Option Nat
  | [] => some acc
  | c :: cs => match digit base c with
    | some d => digits base (acc * base + d) cs
    | none => none

/-- R64: "Numbers are decimal, or hexadecimal with a 0x prefix". -/
def number (w : String) : Option Nat :=
  match w.toList with
  | [] => none
  | ['0', 'x'] => none
  | '0' :: 'x' :: cs => digits 16 0 cs
  | cs => digits 10 0 cs

/-- The words and commas of a line, up to its comment: "A ; starts a comment that runs to the end of the line". `cur` is
the word being read, its last character first. -/
def lineTokens (cur : List Char) : List Char → List String
  | [] => flush cur
  | c :: cs =>
    if c = ';' then flush cur
    else if c = ',' then flush cur ++ "," :: lineTokens [] cs
    else if c = ' ' ∨ c = '\t' ∨ c = '\r' then flush cur ++ lineTokens [] cs
    else lineTokens (c :: cur) cs
where
  /-- The word read, if there is one. -/
  flush (cur : List Char) : List String := if cur.isEmpty then [] else [String.ofList cur.reverse]

/-- The register names of R64. -/
def regNamed : String → Option Reg
  | "CTRL" => some .ctrl
  | "STATUS" => some .status
  | "CURSOR" => some .cursor
  | "OVERRUN_COUNT" => some .overrunCount
  | "HANDOFF_MISS_COUNT" => some .handoffMissCount
  | "FRAME_COUNT" => some .frameCount
  | "GEOMETRY" => some .geometry
  | "CONFIG" => some .config
  | "PINS" => some .pins
  | _ => none

/-- A statement from the tokens of its line. -/
def parseStmt : List String → Option Stmt
  | ["SAMPLE", v] => (number v).map .sample
  | ["HOST", sel, ",", wdata] => do return .host (← number sel) (← number wdata)
  | ["RD", r] => (regNamed r).map .rd
  | ["WR", r, ",", wdata] => do return .wr (← regNamed r) (← number wdata)
  | ["PIX", b, ",", row, ",", col] => do return .pix (← number b) (← number row) (← number col)
  | ["RESET"] => some .reset
  | ["PCLK", d] => (number d).map .pclk
  | ["VSYNC"] => some .vsync
  | ["HREF_HI"] => some .hrefHi
  | ["HREF_LO"] => some .hrefLo
  | ["IDLE"] => some .idle
  | ["ENABLE"] => some .enable
  | ["ENABLE_IRQ"] => some .enableIrq
  | ["DISABLE"] => some .disable
  | ["ACK"] => some .ack
  | _ => none

/-- The lines of a text. `cur` is the line being read, its last character first. -/
def textLines (cur : List Char) : List Char → List (List Char)
  | [] => [cur.reverse]
  | c :: cs => if c = '\n' then cur.reverse :: textLines [] cs else textLines (c :: cur) cs

/-- The statements of lines, "one statement per line"; a line with no token is no statement. -/
def parseLines : List (List Char) → Option (List Stmt)
  | [] => some []
  | l :: ls =>
    match lineTokens [] l with
    | [] => parseLines ls
    | ts => match parseStmt ts with
      | some st => (parseLines ls).map (st :: ·)
      | none => none

/-- A script's statements from its text. -/
def parseScript (text : String) : Option (List Stmt) := parseLines (textLines [] text.toList)

end Sys2Proof.Machine
end

