-- ==== Sys2Proof/Safety.lean ====
section
/-! DEFINITION. What counts as a good state and a good run, in the terms the statements use. -/

namespace Sys2Proof.Machine

/-! ## Runs of instructions and of steps -/

/-- Run a list of instructions in order, stopping at the first stop. -/
def execAll : List Instr → State → Result
  | [], s => .next s
  | i :: is, s => andThen (exec i s) (execAll is)

/-- The enable that R66 asks of an event before it runs. -/
def eventEnabled (s : State) : Instr → Bool
  | .vsyncRise => s.blk.ctrlVsyncEn
  | _ => s.blk.ctrlPclkEn

/-- The reset input is asserted in the next instant. -/
def resetNext (s : State) : Bool :=
  match s.pending with
  | i :: _ => i.rst
  | [] => false

/-- A run of steps in which no VSYNC_RISE is processed and no reset happens. -/
inductive SwapFreeRun : State → State → Prop where
  | refl (s : State) : SwapFreeRun s s
  | tail {s t u : State} : SwapFreeRun s t → resetNext t = false → step t = .next u →
      Record.event .vsyncRise ∉ u.history → SwapFreeRun s u

/-- A run of `n` steps in which no reset happens. -/
inductive ResetFreeRun : Nat → State → State → Prop where
  | refl (s : State) : ResetFreeRun 0 s s
  | tail {n : Nat} {s t u : State} : ResetFreeRun n s t → resetNext t = false → step t = .next u →
      ResetFreeRun (n + 1) s u

/-- The instructions of one row of HREF mode: its pixels, then the fall of HREF (R79). -/
def hrefRow (line : List Sample) : List Instr := line.map .pclkRiseHref ++ [.hrefFall]

/-! ## The invariants of R22 and of the buffers -/

/-- A key names a cell of the frame-buffer space (R33). -/
def keyInSpace (cfg : Config) (k : Nat) : Bool :=
  k < 2 ^ 33 && inSpace cfg (BitVec.ofNat 16 (k / 2 ^ 16)) (BitVec.ofNat 16 k)

/-- What holds in every state that the block reaches. -/
structure Inv (s : State) : Prop where
  /-- R8: the parameters are legal. -/
  cfg_valid : s.cfg.valid = true
  /-- R22: `row <= ROWS`. -/
  row_le : s.blk.row.toNat ≤ s.cfg.rows
  /-- R22: in COUNT mode `col <= COLS - 1`. -/
  count_col : s.cfg.rowAdvance = .count → s.blk.col.toNat < s.cfg.cols
  /-- R22: in COUNT mode `row == ROWS` implies `col == 0`. -/
  count_clamped : s.cfg.rowAdvance = .count → s.blk.row.toNat = s.cfg.rows → s.blk.col = 0
  /-- R22: in HREF mode `col <= COLS`. -/
  href_col : s.cfg.rowAdvance = .href → s.blk.col.toNat ≤ s.cfg.cols
  /-- R24: in COUNT mode `row_len_err` stays 0. -/
  count_flag : s.cfg.rowAdvance = .count → s.blk.rowLenErr = false
  /-- R26, R102: before the first sample the history sample is 0. -/
  prev_unprimed : s.blk.primed = false → s.blk.prev = 0
  /-- The buffers' memory is in its canonical form. -/
  fb_wf : s.blk.fb.wf = true
  /-- R80: nothing is ever written outside the two buffers. -/
  fb_inSpace : ∀ cell ∈ s.blk.fb, keyInSpace s.cfg cell.1 = true

/-! ## The writers of R16 -/

/-- R16, `row` and `col`: "pixel events, HREF_FALL, VSYNC_RISE, reset", and the sample step that runs the events. -/
def writesCursor : Instr → Bool
  | .sample _ | .vsyncRise | .hrefFall | .pclkRiseCount _ | .pclkRiseHref _ | .reset => true
  | _ => false

/-- R16, `active` and `frame_count`: "VSYNC_RISE, reset". -/
def writesActive : Instr → Bool
  | .sample _ | .vsyncRise | .reset => true
  | _ => false

/-- R16, `ready`: VSYNC_RISE, the host's W1C write, reset. -/
def writesReady : Instr → Bool
  | .sample _ | .vsyncRise | .wrStatus _ | .reset => true
  | _ => false

/-- R16, `row_len_err`: the HREF-mode events, the host's W1C write, reset. -/
def writesRowLenErr : Instr → Bool
  | .sample _ | .hrefFall | .pclkRiseHref _ | .wrStatus _ | .reset => true
  | _ => false

/-- R16, the three control bits: "host CTRL write, reset". -/
def writesCtrl : Instr → Bool
  | .wrCtrl _ | .reset => true
  | _ => false

/-- R16, `overrun_count`: pixel events, the host's write, reset. -/
def writesOverrun : Instr → Bool
  | .sample _ | .pclkRiseCount _ | .pclkRiseHref _ | .wrOverrunCount _ | .reset => true
  | _ => false

/-- R16, `handoff_miss_count`: VSYNC_RISE, the host's write, reset. -/
def writesHandoffMiss : Instr → Bool
  | .sample _ | .vsyncRise | .wrHandoffMissCount _ | .reset => true
  | _ => false

/-- R16, `prev` and `primed`: every sample step, reset. -/
def writesPrev : Instr → Bool
  | .sample _ | .reset => true
  | _ => false

/-- R16, `FB[0]` and `FB[1]`: "pixel events". -/
def writesBuffers : Instr → Bool
  | .sample _ | .pclkRiseCount _ | .pclkRiseHref _ => true
  | _ => false

end Sys2Proof.Machine
end

