-- ==== Sys2Proof/Certificates/Slice0/Obligations.lean ====
section
/-! DEFINITION. The statements for the provers. Each is listed in OBLIGATIONS.json under its name. -/

open Sys2Proof Sys2Proof.Machine

/-! ## Encoding -/

/-- R53–R60: decoding the encoding of an instruction that exists in the instance's mode gives it back, with every
operand at every value. -/
def Obligations.DecodeOfEncodeIsTheInstr : Prop :=
  ∀ (m : RowAdvance) (i : Instr), i.wf m = true → decode m (encode i) = .ok i

/-- Words written out from R53, R56, R57, R59, R60 decode to what they stand for. -/
def Obligations.SpecWordsDecode : Prop :=
  decode .count (.S 0x1A5) = .ok (.sample 0x1A5) ∧
  decode .count (.T 0x000400) = .ok .vsyncRise ∧
  decode .href (.T 0x100000) = .ok .hrefFall ∧
  decode .count (.T 0x00017E) = .ok (.pclkRiseCount 0x17E) ∧
  decode .href (.T 0x000355) = .ok (.pclkRiseHref 0x355) ∧
  decode .href (.T 0x0001FF) = .ok (.pclkRiseBlank 0x1FF) ∧
  decode .count (.H 0x4004 0) = .ok .rdStatus ∧
  decode .count (.H 0xC000 7) = .ok (.wrCtrl 7) ∧
  decode .count (.P 0x100020003) = .ok (.pixelRead 1 2 3) ∧
  decode .count (.X 1) = .ok .reset

/-- R60: the register-port map by selector, and "A selector in no row of this table is HOST_BUS_ERROR". -/
def Obligations.RegisterPortMap : Prop :=
  ∀ (m : RowAdvance) (wdata : Word32),
    decode m (.H 0x4000 wdata) = .ok .rdCtrl ∧ decode m (.H 0xC000 wdata) = .ok (.wrCtrl wdata) ∧
    decode m (.H 0x4004 wdata) = .ok .rdStatus ∧ decode m (.H 0xC004 wdata) = .ok (.wrStatus wdata) ∧
    decode m (.H 0x4008 wdata) = .ok .rdCursor ∧ decode m (.H 0xC008 wdata) = .ok (.wrCursor wdata) ∧
    decode m (.H 0x400C wdata) = .ok .rdOverrunCount ∧ decode m (.H 0xC00C wdata) = .ok (.wrOverrunCount wdata) ∧
    decode m (.H 0x4010 wdata) = .ok .rdHandoffMissCount ∧
    decode m (.H 0xC010 wdata) = .ok (.wrHandoffMissCount wdata) ∧
    decode m (.H 0x4014 wdata) = .ok .rdFrameCount ∧ decode m (.H 0xC014 wdata) = .ok (.wrFrameCount wdata) ∧
    decode m (.H 0x4018 wdata) = .ok .rdGeometry ∧ decode m (.H 0xC018 wdata) = .ok (.wrGeometry wdata) ∧
    decode m (.H 0x401C wdata) = .ok .rdConfig ∧ decode m (.H 0xC01C wdata) = .ok (.wrConfig wdata) ∧
    decode m (.H 0x4020 wdata) = .ok .rdPins ∧ decode m (.H 0xC020 wdata) = .ok (.wrPins wdata) ∧
    ∀ sel : BitVec 16,
      sel ∉ ([0x4000, 0xC000, 0x4004, 0xC004, 0x4008, 0xC008, 0x400C, 0xC00C, 0x4010, 0xC010, 0x4014, 0xC014,
        0x4018, 0xC018, 0x401C, 0xC01C, 0x4020, 0xC020] : List (BitVec 16)) →
      decode m (.H sel wdata) = .error (.hostBusError sel)

/-- R67, R59: an event is raised exactly by its edge, in its mode, and at most one PCLK event is raised. -/
def Obligations.EventsAreTheEdges : Prop :=
  ∀ (m : RowAdvance) (prev cur : Sample),
    (.vsyncRise ∈ events m (formatT prev cur) ↔ prev.getLsbD 10 = false ∧ cur.getLsbD 10 = true) ∧
    (.hrefFall ∈ events m (formatT prev cur) ↔ m = .href ∧ prev.getLsbD 9 = true ∧ cur.getLsbD 9 = false) ∧
    (.pclkRiseCount ∈ events m (formatT prev cur) ↔ m = .count ∧ prev.getLsbD 8 = false ∧ cur.getLsbD 8 = true) ∧
    (.pclkRiseHref ∈ events m (formatT prev cur) ↔
      m = .href ∧ prev.getLsbD 8 = false ∧ cur.getLsbD 8 = true ∧ cur.getLsbD 9 = true) ∧
    (.pclkRiseBlank ∈ events m (formatT prev cur) ↔
      m = .href ∧ prev.getLsbD 8 = false ∧ cur.getLsbD 8 = true ∧ cur.getLsbD 9 = false)

/-- R69: bit `k` of the assembled byte is line `Dk`, and in format S the lines already stand in this order. -/
def Obligations.AssembledByteBits : Prop :=
  (∀ d7 d6 d5 d4 d3 d2 d1 d0 : Bool,
    let v := assemble d7 d6 d5 d4 d3 d2 d1 d0
    v.getLsbD 7 = d7 ∧ v.getLsbD 6 = d6 ∧ v.getLsbD 5 = d5 ∧ v.getLsbD 4 = d4 ∧
    v.getLsbD 3 = d3 ∧ v.getLsbD 2 = d2 ∧ v.getLsbD 1 = d1 ∧ v.getLsbD 0 = d0) ∧
  ∀ cur : Sample,
    pixelByte cur = assemble (cur.getLsbD 7) (cur.getLsbD 6) (cur.getLsbD 5) (cur.getLsbD 4)
      (cur.getLsbD 3) (cur.getLsbD 2) (cur.getLsbD 1) (cur.getLsbD 0)

/-! ## Reset and building an instance -/

/-- R131: after power-on every register has its reset value and no cell has been written. -/
def Obligations.PowerOnState : Prop :=
  ∀ (rows cols mode index : Nat) (t : State), powerOn rows cols mode index = .next t →
    t.blk = { row := 0, col := 0, active := 0, ready := false, rowLenErr := false, ctrlPclkEn := false,
              ctrlVsyncEn := false, ctrlIrqEn := false, overrunCount := 0, handoffMissCount := 0, frameCount := 0,
              prev := 0, primed := false, fb := [] } ∧
    t.blk = State.reset.blk ∧ ∀ (b : BitVec 1) (r c : Half), bufRead t b r c = none

/-- R130: the reset step, its output, and what is presented beside it in the same instant. -/
def Obligations.ResetStep : Prop :=
  ∀ s : State,
    (let z : Block := { row := 0, col := 0, active := 0, ready := false, rowLenErr := false, ctrlPclkEn := false,
                        ctrlVsyncEn := false, ctrlIrqEn := false, overrunCount := 0, handoffMissCount := 0,
                        frameCount := 0, prev := 0, primed := false, fb := s.blk.fb }
     exec .reset s = .next { s with blk := z } ∧
     State.frameIrq { s with blk := z } = false ∧
     ∀ (i : Instant) (rest : List Instant), s.cfg.valid = true → s.pending = i :: rest → i.rst = true →
       step s = .next { s with blk := z, pending := rest, response := none, history := [] })

/-- Parameters outside the legal ranges of R8 and R9 are refused, as R115 says of building the instance; legal ones build a
machine with exactly these parameters. That every step of a state with illegal ROWS or COLS is refused too, and that
`powerOn` numbers the modes 0 and 1, is the model's choice, log entry 4 (DEDUCED). -/
def Obligations.ConfigInvalidIsRefused : Prop :=
  (∀ rows cols mode index : Nat,
    (1 ≤ rows ∧ rows ≤ 65535 ∧ 1 ≤ cols ∧ cols ≤ 65535 ∧ mode ≤ 1 →
      ∃ t, powerOn rows cols mode index = .next t ∧ t.cfg.rows = rows ∧ t.cfg.cols = cols ∧
        (t.cfg.rowAdvance = .href ↔ mode = 1)) ∧
    (¬ (1 ≤ rows ∧ rows ≤ 65535 ∧ 1 ≤ cols ∧ cols ≤ 65535 ∧ mode ≤ 1) →
      powerOn rows cols mode index = .refused .configInvalid)) ∧
  ∀ s : State, ¬ (1 ≤ s.cfg.rows ∧ s.cfg.rows ≤ 65535 ∧ 1 ≤ s.cfg.cols ∧ s.cfg.cols ≤ 65535) →
    step s = .refused .configInvalid

/-! ## The sample step -/

/-- R66: an unprimed sample only primes; a primed one runs the enabled events of `{prev, cur}` in their order and then
keeps the sample. -/
def Obligations.SampleRunsEnabledEvents : Prop :=
  ∀ (s : State) (v : Sample),
    (s.blk.primed = false →
      exec (.sample v) s = .next { s with blk := { s.blk with prev := v, primed := true } }) ∧
    (s.blk.primed = true →
      exec (.sample v) s =
        andThen
          (execAll ((decodeEvents s.cfg.rowAdvance (formatT s.blk.prev v)).filter (eventEnabled s)) s)
          fun t => .next { t with blk := { t.blk with prev := v } })

/-- R61, R71: a sample with no edge that counts, or whose edges are all disabled, only updates the history sample. -/
def Obligations.UneventfulSampleOnlyUpdatesPrev : Prop :=
  ∀ (s : State) (v : Sample), s.blk.primed = true →
    (s.blk.ctrlVsyncEn = true → s.blk.prev.getLsbD 10 = false → v.getLsbD 10 = false) →
    (s.blk.ctrlPclkEn = true →
      (s.blk.prev.getLsbD 8 = false → v.getLsbD 8 = false) ∧
      (s.cfg.rowAdvance = .href → s.blk.prev.getLsbD 9 = true → v.getLsbD 9 = true)) →
    exec (.sample v) s = .next { s with blk := { s.blk with prev := v } }

/-- R66, R71, R73: in a reachable state every sample completes, whatever the enables are, and leaves itself in `prev`. -/
def Obligations.SampleCompletes : Prop :=
  ∀ (s : State) (v : Sample), Inv s →
    ∃ t, exec (.sample v) s = .next t ∧ t.blk.prev = v ∧ t.blk.primed = true ∧
      t.blk.ctrlPclkEn = s.blk.ctrlPclkEn ∧ t.blk.ctrlVsyncEn = s.blk.ctrlVsyncEn ∧
      t.blk.ctrlIrqEn = s.blk.ctrlIrqEn ∧ t.cfg = s.cfg ∧ t.powerOnIndex = s.powerOnIndex ∧
      t.pending = s.pending ∧ t.response = s.response

/-- R68: a pixel whose PCLK edge coincides with a VSYNC edge is written to `[0][0]` of the buffer that has just become
active, and nothing else is written. In both modes: in HREF mode the sample is a pixel where its HREF is high. -/
def Obligations.CoincidingPixelGoesToNewFrame : Prop :=
  ∀ (s : State) (v : Sample), s.cfg.valid = true → s.blk.primed = true →
    s.blk.ctrlVsyncEn = true → s.blk.ctrlPclkEn = true →
    (s.cfg.rowAdvance = .href → v.getLsbD 9 = true) →
    s.blk.prev.getLsbD 10 = false → v.getLsbD 10 = true → s.blk.prev.getLsbD 8 = false → v.getLsbD 8 = true →
    ∃ t, exec (.sample v) s = .next t ∧ t.blk.active = 1 - s.blk.active ∧
      bufRead t (1 - s.blk.active) 0 0 = some (v.extractLsb' 0 8) ∧
      (∀ (b : BitVec 1) (r c : Half), ¬ (b = 1 - s.blk.active ∧ r = 0 ∧ c = 0) → bufRead t b r c = bufRead s b r c) ∧
      t.blk.row = (if s.cfg.rowAdvance = .count ∧ s.cfg.cols = 1 then 1 else 0) ∧
      t.blk.col = (if s.cfg.rowAdvance = .count ∧ s.cfg.cols = 1 then 0 else 1) ∧
      t.blk.ready = true ∧ t.blk.frameCount = s.blk.frameCount + 1 ∧ t.blk.overrunCount = s.blk.overrunCount ∧
      t.blk.rowLenErr = s.blk.rowLenErr

/-- R68: in HREF mode an HREF fall that coincides with a PCLK rise ends the row first, and the pixel is then a blanking
edge. -/
def Obligations.CoincidingHrefFallEndsRowFirst : Prop :=
  ∀ (s : State) (v : Sample), s.cfg.rowAdvance = .href → s.blk.primed = true → s.blk.ctrlPclkEn = true →
    ¬ (s.blk.prev.getLsbD 10 = false ∧ v.getLsbD 10 = true) →
    s.blk.prev.getLsbD 9 = true → v.getLsbD 9 = false → s.blk.prev.getLsbD 8 = false → v.getLsbD 8 = true →
    s.blk.row.toNat < s.cfg.rows →
    ∃ t, exec (.sample v) s = .next t ∧
      t.blk = { s.blk with row := s.blk.row + 1, col := 0, prev := v,
                           rowLenErr := s.blk.rowLenErr || s.blk.col.toNat != s.cfg.cols } ∧
      t.history = s.history ++ (.event .hrefFall ::
        (if s.blk.col.toNat = s.cfg.cols then [] else [.condition (.rowLengthMismatch s.blk.row s.blk.col)])) ++
        [.event .pclkRiseBlank]

/-- R68: in HREF mode an HREF rise that coincides with a PCLK rise has HREF high, so the pixel is written. -/
def Obligations.CoincidingHrefRiseWritesPixel : Prop :=
  ∀ (s : State) (v : Sample), s.cfg.rowAdvance = .href → s.blk.primed = true → s.blk.ctrlPclkEn = true →
    ¬ (s.blk.prev.getLsbD 10 = false ∧ v.getLsbD 10 = true) →
    s.blk.prev.getLsbD 9 = false → v.getLsbD 9 = true → s.blk.prev.getLsbD 8 = false → v.getLsbD 8 = true →
    s.blk.row.toNat < s.cfg.rows → s.blk.col.toNat < s.cfg.cols →
    exec (.sample v) s = .next { s with
      blk := { s.blk with
        fb := s.blk.fb.write (cellKey s.blk.active s.blk.row s.blk.col) (v.extractLsb' 0 8)
        col := s.blk.col + 1
        prev := v }
      history := s.history ++ [.event .pclkRiseHref] }

/-! ## The pixel events -/

/-- R74, the whole event: the clamped path, and the write and advance. -/
def Obligations.PclkRiseCountResult : Prop :=
  ∀ (s : State) (cur : Sample),
    (s.cfg.rows ≤ s.blk.row.toNat →
      exec (.pclkRiseCount cur) s = .next { s with
        blk := { s.blk with overrunCount := BitVec.ofNat 32 (min (s.blk.overrunCount.toNat + 1) 0xFFFFFFFF) }
        history := s.history ++ [.event .pclkRiseCount, .condition (.captureOverrun s.blk.row s.blk.col)] }) ∧
    (s.blk.row.toNat < s.cfg.rows → s.blk.col.toNat < s.cfg.cols →
      exec (.pclkRiseCount cur) s = .next { s with
        blk := { s.blk with
          fb := s.blk.fb.write (cellKey s.blk.active s.blk.row s.blk.col) (cur.extractLsb' 0 8)
          row := if s.blk.col.toNat + 1 = s.cfg.cols then s.blk.row + 1 else s.blk.row
          col := if s.blk.col.toNat + 1 = s.cfg.cols then 0 else s.blk.col + 1 }
        history := s.history ++ [.event .pclkRiseCount] })

/-- Outside the invariant only: an unclamped cursor whose column is no column names no cell of R33, and the model's buffer
write faults (log entry 7, the model's choice). -/
def Obligations.PclkRiseCountOutsideSpaceFaults : Prop :=
  ∀ (s : State) (cur : Sample), s.blk.row.toNat < s.cfg.rows → s.cfg.cols ≤ s.blk.col.toNat →
    exec (.pclkRiseCount cur) s = .fault (.cellOutOfRange s.blk.active s.blk.row s.blk.col)

/-- R75, the whole event: frame complete, row too long, and the write. -/
def Obligations.PclkRiseHrefResult : Prop :=
  ∀ (s : State) (cur : Sample),
    (s.cfg.rows ≤ s.blk.row.toNat →
      exec (.pclkRiseHref cur) s = .next { s with
        blk := { s.blk with overrunCount := BitVec.ofNat 32 (min (s.blk.overrunCount.toNat + 1) 0xFFFFFFFF) }
        history := s.history ++ [.event .pclkRiseHref, .condition (.captureOverrun s.blk.row s.blk.col)] }) ∧
    (s.blk.row.toNat < s.cfg.rows → s.cfg.cols ≤ s.blk.col.toNat →
      exec (.pclkRiseHref cur) s = .next { s with
        blk := { s.blk with
          overrunCount := BitVec.ofNat 32 (min (s.blk.overrunCount.toNat + 1) 0xFFFFFFFF)
          rowLenErr := true }
        history := s.history ++ [.event .pclkRiseHref, .condition (.captureOverrun s.blk.row s.blk.col),
          .condition (.rowLengthMismatch s.blk.row s.blk.col)] }) ∧
    (s.blk.row.toNat < s.cfg.rows → s.blk.col.toNat < s.cfg.cols →
      exec (.pclkRiseHref cur) s = .next { s with
        blk := { s.blk with
          fb := s.blk.fb.write (cellKey s.blk.active s.blk.row s.blk.col) (cur.extractLsb' 0 8)
          col := s.blk.col + 1 }
        history := s.history ++ [.event .pclkRiseHref] })

/-- R76: a PCLK edge outside a row changes nothing of the block. -/
def Obligations.PclkRiseBlankResult : Prop :=
  ∀ (s : State) (cur : Sample),
    exec (.pclkRiseBlank cur) s = .next { s with history := s.history ++ [.event .pclkRiseBlank] }

/-- R77, R80: the frame of the three pixel events. The only cell that may change is the one at the cursor in the active
buffer, and only where the cursor is inside the space. -/
def Obligations.PixelEventFrame : Prop :=
  ∀ (i : Instr) (cur : Sample) (s t : State),
    i ∈ [Instr.pclkRiseCount cur, .pclkRiseHref cur, .pclkRiseBlank cur] → exec i s = .next t →
    t.blk.active = s.blk.active ∧ t.blk.ready = s.blk.ready ∧ t.blk.ctrlPclkEn = s.blk.ctrlPclkEn ∧
    t.blk.ctrlVsyncEn = s.blk.ctrlVsyncEn ∧ t.blk.ctrlIrqEn = s.blk.ctrlIrqEn ∧
    t.blk.handoffMissCount = s.blk.handoffMissCount ∧ t.blk.frameCount = s.blk.frameCount ∧
    t.blk.prev = s.blk.prev ∧ t.blk.primed = s.blk.primed ∧ t.cfg = s.cfg ∧ t.powerOnIndex = s.powerOnIndex ∧
    t.pending = s.pending ∧ t.response = s.response ∧
    (i ≠ .pclkRiseCount cur → t.blk.row = s.blk.row) ∧ (i ≠ .pclkRiseHref cur → t.blk.rowLenErr = s.blk.rowLenErr) ∧
    (∀ (b : BitVec 1) (r c : Half),
      (s.blk.row.toNat < s.cfg.rows → s.blk.col.toNat < s.cfg.cols → (b, r, c) ≠ (s.blk.active, s.blk.row, s.blk.col)) →
      bufRead t b r c = bufRead s b r c)

/-! ## The sync events -/

/-- R81, the whole event. -/
def Obligations.VsyncRiseResult : Prop :=
  ∀ s : State,
    exec .vsyncRise s = .next { s with
      blk := { s.blk with
        row := 0
        col := 0
        active := 1 - s.blk.active
        handoffMissCount :=
          if s.blk.ready then BitVec.ofNat 32 (min (s.blk.handoffMissCount.toNat + 1) 0xFFFFFFFF)
          else s.blk.handoffMissCount
        ready := true
        frameCount := s.blk.frameCount + 1 }
      history := s.history ++ .event .vsyncRise ::
        (if s.blk.ready then [.condition (.handoffMiss s.blk.frameCount)] else []) }

/-- R82, the whole event. -/
def Obligations.HrefFallResult : Prop :=
  ∀ s : State,
    (s.cfg.rows ≤ s.blk.row.toNat →
      exec .hrefFall s = .next { s with history := s.history ++ [.event .hrefFall] }) ∧
    (s.blk.row.toNat < s.cfg.rows →
      exec .hrefFall s = .next { s with
        blk := { s.blk with
          row := s.blk.row + 1
          col := 0
          rowLenErr := if s.blk.col.toNat = s.cfg.cols then s.blk.rowLenErr else true }
        history := s.history ++ .event .hrefFall ::
          (if s.blk.col.toNat = s.cfg.cols then [] else [.condition (.rowLengthMismatch s.blk.row s.blk.col)]) })

/-- R83: after N VSYNC_RISE events, from any state. -/
def Obligations.RepeatedVsyncRise : Prop :=
  ∀ (n : Nat) (s : State), ∃ t, execAll (List.replicate n .vsyncRise) s = .next t ∧
    (1 ≤ n → t.blk.row = 0 ∧ t.blk.col = 0) ∧
    t.blk.active = s.blk.active ^^^ BitVec.ofNat 1 (n % 2) ∧
    t.blk.frameCount = s.blk.frameCount + BitVec.ofNat 32 n ∧ t.blk.fb = s.blk.fb

/-- R84: with VSYNC disabled no sample swaps the buffers, and a clamped cursor of COUNT mode stays clamped and writes
nothing. -/
def Obligations.NoSwapWithVsyncDisabled : Prop :=
  ∀ (vs : List Sample) (s t : State), s.blk.ctrlVsyncEn = false → execAll (vs.map .sample) s = .next t →
    t.blk.active = s.blk.active ∧ t.blk.ready = s.blk.ready ∧ t.blk.frameCount = s.blk.frameCount ∧
    t.blk.handoffMissCount = s.blk.handoffMissCount ∧
    (s.cfg.rowAdvance = .count → s.cfg.rows ≤ s.blk.row.toNat →
      t.blk.row = s.blk.row ∧ t.blk.col = s.blk.col ∧ t.blk.fb = s.blk.fb)

/-! ## Whole frames -/

/-- R78: a frame of COUNT mode. -/
def Obligations.CountFrameFillsBuffer : Prop :=
  ∀ (s : State) (px : List Sample), s.cfg.valid = true → px.length = s.cfg.rows * s.cfg.cols →
    ∃ t, execAll (.vsyncRise :: px.map .pclkRiseCount) s = .next t ∧
      (∀ r c : Nat, r < s.cfg.rows → c < s.cfg.cols →
        bufRead t t.blk.active (BitVec.ofNat 16 r) (BitVec.ofNat 16 c) = (px[r * s.cfg.cols + c]?).map pixelByte) ∧
      t.blk.row.toNat = s.cfg.rows ∧ t.blk.col = 0 ∧
      ∀ more : List Sample, ∃ u, execAll (more.map .pclkRiseCount) t = .next u ∧
        u.blk = { t.blk with
          overrunCount := BitVec.ofNat 32 (min (t.blk.overrunCount.toNat + more.length) 0xFFFFFFFF) }

/-- R79: a frame of HREF mode. -/
def Obligations.HrefFrameFillsBuffer : Prop :=
  ∀ (s : State) (lines : List (List Sample)), s.cfg.valid = true → lines.length = s.cfg.rows →
    (∀ l ∈ lines, l.length = s.cfg.cols) →
    ∃ t, execAll (.vsyncRise :: lines.flatMap hrefRow) s = .next t ∧
      (∀ r c : Nat, r < s.cfg.rows → c < s.cfg.cols →
        bufRead t t.blk.active (BitVec.ofNat 16 r) (BitVec.ofNat 16 c) =
          ((lines[r]?).bind fun l => l[c]?).map pixelByte) ∧
      t.blk.row.toNat = s.cfg.rows ∧ t.blk.col = 0 ∧ t.blk.rowLenErr = s.blk.rowLenErr

/-! ## The register port -/

/-- R86, R88: CTRL and STATUS bit by bit. -/
def Obligations.ControlAndStatusReads : Prop :=
  ∀ s : State,
    (∃ w : Word32, exec .rdCtrl s = .next { s with response := some (.reg .ok w) } ∧
      w.getLsbD 0 = s.blk.ctrlPclkEn ∧ w.getLsbD 1 = s.blk.ctrlVsyncEn ∧ w.getLsbD 2 = s.blk.ctrlIrqEn ∧
      ∀ k, 3 ≤ k → w.getLsbD k = false) ∧
    (∃ w : Word32, exec .rdStatus s = .next { s with response := some (.reg .ok w) } ∧
      w.getLsbD 0 = s.blk.active.getLsbD 0 ∧ w.getLsbD 1 = s.blk.ready ∧
      w.getLsbD 2 = decide (s.cfg.rows ≤ s.blk.row.toNat) ∧ w.getLsbD 3 = s.blk.rowLenErr ∧
      w.getLsbD 4 = s.blk.primed ∧ ∀ k, 5 ≤ k → w.getLsbD k = false)

/-- R90, R92, R94, R96: the cursor and the counters. -/
def Obligations.CursorAndCounterReads : Prop :=
  ∀ s : State,
    exec .rdCursor s = .next { s with response := some (.reg .ok (s.blk.row ++ s.blk.col)) } ∧
    exec .rdOverrunCount s = .next { s with response := some (.reg .ok s.blk.overrunCount) } ∧
    exec .rdHandoffMissCount s = .next { s with response := some (.reg .ok s.blk.handoffMissCount) } ∧
    exec .rdFrameCount s = .next { s with response := some (.reg .ok s.blk.frameCount) }

/-- R98, R100, R102: the geometry, the mode and the last sample, as numbers. -/
def Obligations.ConfigurationAndPinsReads : Prop :=
  ∀ s : State, s.cfg.valid = true →
    (∃ w : Word32, exec .rdGeometry s = .next { s with response := some (.reg .ok w) } ∧
      w.toNat = s.cfg.rows * 65536 + s.cfg.cols) ∧
    (∃ w : Word32, exec .rdConfig s = .next { s with response := some (.reg .ok w) } ∧
      w = if s.cfg.rowAdvance = .href then 1 else 0) ∧
    (∃ w : Word32, exec .rdPins s = .next { s with response := some (.reg .ok w) } ∧
      w.toNat = s.blk.prev.toNat ∧ (Inv s → s.blk.primed = false → w = 0))

/-- R87: bits 0, 1 and 2 of WDATA become the enables, and nothing else of the block changes. -/
def Obligations.ControlWrite : Prop :=
  ∀ (s : State) (wdata : Word32),
    exec (.wrCtrl wdata) s = .next { s with
      blk := { s.blk with
        ctrlPclkEn := wdata.getLsbD 0
        ctrlVsyncEn := wdata.getLsbD 1
        ctrlIrqEn := wdata.getLsbD 2 }
      response := some (.reg .ok 0) }

/-- R86's example for every word: what is read back after a CTRL write is its low three bits. -/
def Obligations.ControlReadsBackLowBits : Prop :=
  ∀ (s : State) (wdata : Word32), ∃ t, execAll [.wrCtrl wdata, .rdCtrl] s = .next t ∧
    t.response = some (.reg .ok (wdata &&& 7))

/-- R89: the W1C write to STATUS, and that a sample of the same instant comes after it. -/
def Obligations.StatusWriteClears : Prop :=
  ∀ (s : State) (wdata : Word32),
    exec (.wrStatus wdata) s = .next { s with
      blk := { s.blk with
        ready := if wdata.getLsbD 1 then false else s.blk.ready
        rowLenErr := if wdata.getLsbD 3 then false else s.blk.rowLenErr }
      response := some (.reg .ok 0) } ∧
    ∀ (v : Sample) (rest : List Instant), s.cfg.valid = true →
      s.pending = { rst := false, host := some (.reg 0xC004 wdata), sample := some v } :: rest →
      step s = exec (.wrStatus wdata) { s with
        pending := { rst := false, host := none, sample := some v } :: rest, response := none, history := [] }

/-- R93, R95: any write clears its counter and changes nothing else. -/
def Obligations.CounterWritesClear : Prop :=
  ∀ (s : State) (wdata : Word32),
    exec (.wrOverrunCount wdata) s =
      .next { s with blk := { s.blk with overrunCount := 0 }, response := some (.reg .ok 0) } ∧
    exec (.wrHandoffMissCount wdata) s =
      .next { s with blk := { s.blk with handoffMissCount := 0 }, response := some (.reg .ok 0) }

/-- R91, R97, R99, R101, R103: the ignored writes answer OK and change nothing of the block. -/
def Obligations.IgnoredWrites : Prop :=
  ∀ (s : State) (wdata : Word32) (i : Instr),
    i ∈ [Instr.wrCursor wdata, .wrFrameCount wdata, .wrGeometry wdata, .wrConfig wdata, .wrPins wdata] →
    exec i s = .next { s with response := some (.reg .ok 0) }

/-- R112, R85: a request whose selector fails the check is answered `(ERR, 0)`, raises HOST_BUS_ERROR and changes nothing of
the block; no other request raises it. -/
def Obligations.BadSelectorIsHostBusError : Prop :=
  ∀ (s : State) (i : Instant) (rest : List Instant) (sel : BitVec 16) (wdata : Word32),
    s.cfg.valid = true → s.pending = i :: rest → i.rst = false → i.host = some (.reg sel wdata) →
    (sel.extractLsb' 13 2 ≠ 2 ∨ sel.extractLsb' 8 5 ≠ 0 ∨ sel.extractLsb' 0 2 ≠ 0 ∨ 0x20 < (sel.extractLsb' 0 8).toNat →
      step s = .next { s with
        pending := afterHost i rest
        response := some (.reg .err 0)
        history := [.condition (.hostBusError sel)] }) ∧
    (¬ (sel.extractLsb' 13 2 ≠ 2 ∨ sel.extractLsb' 8 5 ≠ 0 ∨ sel.extractLsb' 0 2 ≠ 0 ∨
        0x20 < (sel.extractLsb' 0 8).toNat) →
      ∃ t w, step s = .next t ∧ t.response = some (.reg .ok w) ∧ t.history = [])

/-! ## The pixel port -/

/-- R104, R113, R114: the range check, the active-buffer check, and the byte. -/
def Obligations.PixelReadResult : Prop :=
  ∀ (s : State) (b : BitVec 1) (r c : Half),
    (s.cfg.rows ≤ r.toNat ∨ s.cfg.cols ≤ c.toNat →
      exec (.pixelRead b r c) s = .next { s with
        response := some (.pix .errRange 0), history := s.history ++ [.condition (.pixelRangeError b r c)] }) ∧
    (r.toNat < s.cfg.rows → c.toNat < s.cfg.cols → b = s.blk.active →
      exec (.pixelRead b r c) s = .next { s with
        response := some (.pix .errActive 0), history := s.history ++ [.condition (.activeBufferRead b r c)] }) ∧
    (r.toNat < s.cfg.rows → c.toNat < s.cfg.cols → b ≠ s.blk.active →
      ∃ d, exec (.pixelRead b r c) s = .next { s with response := some (.pix .ok d) } ∧
        ∀ v, bufRead s b r c = some v → d = v)

/-- R104: what a pixel read shows does not depend on the active buffer. -/
def Obligations.PixelReadIgnoresActiveBuffer : Prop :=
  ∀ (s t t' : State) (fb' : Memory) (b : BitVec 1) (r c : Half),
    (∀ r c : Half, fb'.read (cellKey (1 - s.blk.active) r c) = s.blk.fb.read (cellKey (1 - s.blk.active) r c)) →
    exec (.pixelRead b r c) s = .next t →
    exec (.pixelRead b r c) { s with blk := { s.blk with fb := fb' } } = .next t' →
    t'.response = t.response

/-- R105: no host access and no reset changes a cell; only pixel events, and the sample steps that run them, do. -/
def Obligations.HostNeverWritesBuffers : Prop :=
  ∀ (i : Instr) (s t : State), writesBuffers i = false → exec i s = .next t → t.blk.fb = s.blk.fb

/-- R40: reading has no side effect on the block, and reading again gives the same answer. -/
def Obligations.ReadsAreIdempotent : Prop :=
  ∀ (i : Instr) (b : BitVec 1) (r c : Half) (s t : State),
    i ∈ [Instr.rdCtrl, .rdStatus, .rdCursor, .rdOverrunCount, .rdHandoffMissCount, .rdFrameCount, .rdGeometry,
      .rdConfig, .rdPins, .pixelRead b r c] →
    exec i s = .next t →
    t.blk = s.blk ∧ t.cfg = s.cfg ∧ ∃ u, exec i t = .next u ∧ u.response = t.response ∧ u.blk = s.blk

/-! ## The frame-buffer space -/

/-- R13, R36, R44: a buffer write changes the one cell it names. -/
def Obligations.BufferWriteChangesOneCell : Prop :=
  ∀ (s t : State) (b : BitVec 1) (r c : Half) (v : Byte), bufWrite s b r c v = .next t →
    bufRead t b r c = some v ∧
    ∀ (b' : BitVec 1) (r' c' : Half), (b', r', c') ≠ (b, r, c) → bufRead t b' r' c' = bufRead s b' r' c'

/-- Equal memories are equal data: two canonical memories that read the same everywhere are one list, and a write keeps
the form. -/
def Obligations.MemoryIsCanonical : Prop :=
  (∀ m m' : Memory, m.wf = true → m'.wf = true → (∀ k, m.read k = m'.read k) → m = m') ∧
  ∀ (m : Memory) (k : Nat) (v : Byte), m.wf = true → (m.write k v).wf = true

/-- R35: the row-major offset names each cell of a buffer once, inside ROWS × COLS bytes. -/
def Obligations.LinearOffsetIsInjective : Prop :=
  ∀ (cfg : Config) (r c r' c' : Nat), r < cfg.rows → c < cfg.cols → r' < cfg.rows → c' < cfg.cols →
    linearOffset cfg r c < cfg.rows * cfg.cols ∧
    (linearOffset cfg r c = linearOffset cfg r' c' → r = r' ∧ c = c')

/-! ## Flags and counters -/

/-- R31, R119: the interrupt output, and how the host takes it down. -/
def Obligations.FrameIrqLevel : Prop :=
  ∀ (s t : State) (wdata : Word32),
    (s.frameIrq = true ↔ s.blk.ready = true ∧ s.blk.ctrlIrqEn = true) ∧
    (exec (.wrStatus wdata) s = .next t → wdata.getLsbD 1 = true → t.frameIrq = false) ∧
    (exec (.wrCtrl wdata) s = .next t → wdata.getLsbD 2 = false → t.frameIrq = false) ∧
    (exec .vsyncRise s = .next t → t.frameIrq = s.blk.ctrlIrqEn)

/-- R28, R29, R30: the two counters that saturate and the one that wraps, as numbers. -/
def Obligations.CountersSaturateOrWrap : Prop :=
  ∀ (s t : State) (cur : Sample),
    (exec (.pclkRiseCount cur) s = .next t ∨ exec (.pclkRiseHref cur) s = .next t →
      s.blk.overrunCount.toNat ≤ t.blk.overrunCount.toNat ∧
      t.blk.overrunCount.toNat ≤ s.blk.overrunCount.toNat + 1 ∧
      (s.blk.overrunCount = 0xFFFFFFFF → t.blk.overrunCount = 0xFFFFFFFF)) ∧
    (exec .vsyncRise s = .next t →
      t.blk.handoffMissCount.toNat =
        min (s.blk.handoffMissCount.toNat + (if s.blk.ready then 1 else 0)) 4294967295 ∧
      t.blk.frameCount.toNat = (s.blk.frameCount.toNat + 1) % 2 ^ 32)

/-- R49: a STATUS read, a VSYNC_RISE and then the acknowledgement clear the READY of the second frame, and the miss is
counted. -/
def Obligations.AcknowledgeRaceIsCounted : Prop :=
  ∀ s : State, s.blk.ready = true →
    ∃ t, execAll [.rdStatus, .vsyncRise, .wrStatus 2] s = .next t ∧ t.blk.ready = false ∧
      t.blk.handoffMissCount = BitVec.ofNat 32 (min (s.blk.handoffMissCount.toNat + 1) 0xFFFFFFFF) ∧
      t.blk.frameCount = s.blk.frameCount + 1 ∧ t.blk.active = 1 - s.blk.active

/-! ## Rules of the whole machine -/

/-- R16, the "written by" column, and R32: only the named instructions write an element, and none writes the
configuration. -/
def Obligations.OnlyNamedInstrsWrite : Prop :=
  ∀ (i : Instr) (s t : State), exec i s = .next t →
    (writesCursor i = false → t.blk.row = s.blk.row ∧ t.blk.col = s.blk.col) ∧
    (writesActive i = false → t.blk.active = s.blk.active ∧ t.blk.frameCount = s.blk.frameCount) ∧
    (writesReady i = false → t.blk.ready = s.blk.ready) ∧
    (writesRowLenErr i = false → t.blk.rowLenErr = s.blk.rowLenErr) ∧
    (writesCtrl i = false → t.blk.ctrlPclkEn = s.blk.ctrlPclkEn ∧ t.blk.ctrlVsyncEn = s.blk.ctrlVsyncEn ∧
      t.blk.ctrlIrqEn = s.blk.ctrlIrqEn) ∧
    (writesOverrun i = false → t.blk.overrunCount = s.blk.overrunCount) ∧
    (writesHandoffMiss i = false → t.blk.handoffMissCount = s.blk.handoffMissCount) ∧
    (writesPrev i = false → t.blk.prev = s.blk.prev ∧ t.blk.primed = s.blk.primed) ∧
    t.cfg = s.cfg ∧ t.powerOnIndex = s.powerOnIndex ∧ t.pending = s.pending

/-- R24: no step of a COUNT-mode instance sets `row_len_err`. -/
def Obligations.CountModeNeverSetsRowLenErr : Prop :=
  ∀ s t : State, s.cfg.rowAdvance = .count → step s = .next t → t.blk.rowLenErr = true → s.blk.rowLenErr = true

/-- A step takes the next input and runs it: the reset input before all else, a host request before a sample, a sample
(R14, R120). The model's own choices in it (DEDUCED) are the step that waits where nothing is presented and that of an
empty instant (log entries 1, 2), and that a step starts with the last one's response and history cleared (log entry 8). -/
def Obligations.StepRunsDecodedInput : Prop :=
  ∀ s : State, s.cfg.valid = true →
    (s.pending = [] → step s = .next { s with response := none, history := [] }) ∧
    ∀ (i : Instant) (rest : List Instant), s.pending = i :: rest →
      (i.rst = true → step s = exec .reset { s with pending := rest, response := none, history := [] }) ∧
      (i.rst = false →
        (∀ (sel : BitVec 16) (wdata : Word32) (ins : Instr), i.host = some (.reg sel wdata) →
          decode s.cfg.rowAdvance (.H sel wdata) = .ok ins →
          step s = exec ins { s with pending := afterHost i rest, response := none, history := [] }) ∧
        (∀ (b : BitVec 1) (r c : Half), i.host = some (.pix (b ++ r ++ c)) →
          step s = exec (.pixelRead b r c)
            { s with pending := afterHost i rest, response := none, history := [] }) ∧
        (∀ v : Sample, i.host = none → i.sample = some v →
          step s = exec (.sample v) { s with pending := rest, response := none, history := [] }) ∧
        (i.host = none → i.sample = none →
          step s = .next { s with pending := rest, response := none, history := [] }))

/-- R22 and R80 hold after reset, for every legal instance. -/
def Obligations.InvHoldsAtPowerOn : Prop :=
  Inv State.reset ∧ ∀ (rows cols mode index : Nat) (t : State), powerOn rows cols mode index = .next t → Inv t

/-- R22: every step keeps the invariant: the cursor's bounds, the COUNT-mode flag, the buffers' form and bounds. -/
def Obligations.StepKeepsInv : Prop :=
  ∀ s t : State, Inv s → step s = .next t → Inv t

/-- R107, R117: the block has no trap: from a state that meets the invariant every step answers a next state, whatever is
presented. -/
def Obligations.StepNeverStops : Prop :=
  ∀ s : State, Inv s → ∃ t, step s = .next t

/-- R45, R47: while no VSYNC_RISE is processed and no reset happens, the ready buffer is immutable and stays the ready
buffer. -/
def Obligations.ReadyBufferIsImmutable : Prop :=
  ∀ s t : State, SwapFreeRun s t →
    t.blk.active = s.blk.active ∧ t.cfg = s.cfg ∧
    ∀ r c : Half, bufRead t (1 - s.blk.active) r c = bufRead s (1 - s.blk.active) r c

/-- R30, R106: over fewer than 2^32 steps without a reset, a FRAME_COUNT that reads the same means that no step of the run
processed a VSYNC_RISE, so that the ready buffer is the same one and unchanged. -/
def Obligations.FrameCountDetectsSwap : Prop :=
  ∀ (n : Nat) (s t : State), n < 2 ^ 32 → ResetFreeRun n s t → t.blk.frameCount = s.blk.frameCount →
    SwapFreeRun s t ∧ t.blk.active = s.blk.active ∧
    ∀ r c : Half, bufRead t (1 - s.blk.active) r c = bufRead s (1 - s.blk.active) r c

/-! ## The stimulus script -/

/-- R64: the base statements' encodings, and the rejection of operands that do not fit. -/
def Obligations.BaseStatementsAssemble : Prop :=
  ∀ (h : Held) (v : Sample) (sel : BitVec 16) (w : Word32) (b : BitVec 1) (r c : Half) (reg : Reg)
    (n m k : Nat),
    (Stmt.sample v.toNat).assemble h = some ([.S v], h) ∧
    (Stmt.host sel.toNat w.toNat).assemble h = some ([.H sel w], h) ∧
    (∃ rsel, (Stmt.rd reg).assemble h = some ([.H rsel 0], h) ∧ rsel.toNat = 0x4000 + reg.offset.toNat) ∧
    (∃ wsel, (Stmt.wr reg w.toNat).assemble h = some ([.H wsel w], h) ∧ wsel.toNat = 0xC000 + reg.offset.toNat) ∧
    (Stmt.pix b.toNat r.toNat c.toNat).assemble h = some ([.P (b ++ r ++ c)], h) ∧
    Stmt.reset.assemble h = some ([.X 1], h) ∧
    (2 ^ 11 ≤ n → (Stmt.sample n).assemble h = none) ∧ (2 ^ 32 ≤ n → (Stmt.wr reg n).assemble h = none) ∧
    (2 ^ 16 ≤ n ∨ 2 ^ 32 ≤ m → (Stmt.host n m).assemble h = none) ∧
    (2 ≤ n ∨ 2 ^ 16 ≤ m ∨ 2 ^ 16 ≤ k → (Stmt.pix n m k).assemble h = none) ∧
    (2 ^ 8 ≤ n → (Stmt.pclk n).assemble h = none)

/-- R65: the held values at the start of a script, the expansions of the pseudo-statements and what they hold, with the
vector that R53's `enc` builds as a number and by its fields. -/
def Obligations.PseudoStatementsExpand : Prop :=
  (∀ (v h p : Bool) (d : Byte),
    (encSample v h p d).toNat = v.toNat * 0x400 + h.toNat * 0x200 + p.toNat * 0x100 + d.toNat ∧
    (encSample v h p d).getLsbD 10 = v ∧ (encSample v h p d).getLsbD 9 = h ∧ (encSample v h p d).getLsbD 8 = p ∧
    (encSample v h p d).extractLsb' 0 8 = d) ∧
  (∀ sts : List Stmt, assembleScript sts = assembleFrom { href := false, data := 0 } sts) ∧
  ∀ (hh : Bool) (dh d : Byte),
    let h : Held := { href := hh, data := dh }
    (Stmt.pclk d.toNat).assemble h =
      some ([.S (encSample false hh false d), .S (encSample false hh true d)], { href := hh, data := d }) ∧
    Stmt.vsync.assemble h = some ([.S (encSample true hh false dh), .S (encSample false hh false dh)], h) ∧
    Stmt.hrefHi.assemble h = some ([.S (encSample false true false dh)], { href := true, data := dh }) ∧
    Stmt.hrefLo.assemble h = some ([.S (encSample false false false dh)], { href := false, data := dh }) ∧
    Stmt.idle.assemble h = some ([.S (encSample false hh false dh)], h) ∧
    Stmt.enable.assemble h = some ([.H 0xC000 0x3], h) ∧ Stmt.enableIrq.assemble h = some ([.H 0xC000 0x7], h) ∧
    Stmt.disable.assemble h = some ([.H 0xC000 0x0], h) ∧ Stmt.ack.assemble h = some ([.H 0xC004 0x2], h)
end

