-- ==== Sys2Proof/Laws/Events.lean ====
section
/-! SUPPORT. The fields of format P, and the event map as edges of single levels (spec/30_encoding.md R59, spec/40_sampler_and_edges.md R67), and the two
halves of a format T word. -/

namespace Sys2Proof

theorem formatT_getLsbD (prev cur : Sample) (i : Nat) :
    (formatT prev cur).getLsbD i = if i < 11 then cur.getLsbD i else prev.getLsbD (i - 11) := by
  show BitVec.getLsbD (prev ++ cur) i = _
  rw [BitVec.getLsbD_append]

@[simp] theorem curOf_formatT (prev cur : Sample) : curOf (formatT prev cur) = cur := by
  apply BitVec.eq_of_getLsbD_eq
  intro i hi
  rw [curOf, BitVec.getLsbD_extractLsb', formatT_getLsbD]
  simp [hi]

@[simp] theorem prevOf_formatT (prev cur : Sample) : prevOf (formatT prev cur) = prev := by
  apply BitVec.eq_of_getLsbD_eq
  intro i hi
  rw [prevOf, BitVec.getLsbD_extractLsb', formatT_getLsbD]
  simp [hi]

/-- A masked match of R59, bit by bit in the two samples. -/
theorem formatT_match (prev cur : Sample) (mask pattern : BitVec 22) :
    formatT prev cur &&& mask = pattern ↔
      (∀ i < 11, (cur.getLsbD i && mask.getLsbD i) = pattern.getLsbD i) ∧
      ∀ i < 11, (prev.getLsbD i && mask.getLsbD (i + 11)) = pattern.getLsbD (i + 11) := by
  constructor
  · rintro rfl
    refine ⟨fun i hi => ?_, fun i hi => ?_⟩
    · rw [BitVec.getLsbD_and, formatT_getLsbD, if_pos hi]
    · rw [BitVec.getLsbD_and, formatT_getLsbD, if_neg (by omega), Nat.add_sub_cancel]
  · rintro ⟨hc, hp⟩
    apply BitVec.eq_of_getLsbD_eq
    intro i hi
    rw [BitVec.getLsbD_and, formatT_getLsbD]
    split_ifs with h
    · exact hc i h
    · have := hp (i - 11) (by omega)
      rwa [Nat.sub_add_cancel (by omega)] at this

theorem match_vsyncRise (prev cur : Sample) :
    formatT prev cur &&& 0x200400#22 = 0x000400#22 ↔ prev.getLsbD 10 = false ∧ cur.getLsbD 10 = true := by
  rw [formatT_match]
  constructor
  · rintro ⟨hc, hp⟩
    have h1 : (cur.getLsbD 10 && true) = true := hc 10 (by decide)
    have h2 : (prev.getLsbD 10 && true) = false := hp 10 (by decide)
    rw [Bool.and_true] at h1 h2
    exact ⟨h2, h1⟩
  · rintro ⟨h1, h2⟩
    refine ⟨fun i hi => ?_, fun i hi => ?_⟩ <;> interval_cases i <;> simp_all

theorem match_hrefFall (prev cur : Sample) :
    formatT prev cur &&& 0x100200#22 = 0x100000#22 ↔ prev.getLsbD 9 = true ∧ cur.getLsbD 9 = false := by
  rw [formatT_match]
  constructor
  · rintro ⟨hc, hp⟩
    have h1 : (cur.getLsbD 9 && true) = false := hc 9 (by decide)
    have h2 : (prev.getLsbD 9 && true) = true := hp 9 (by decide)
    rw [Bool.and_true] at h1 h2
    exact ⟨h2, h1⟩
  · rintro ⟨h1, h2⟩
    refine ⟨fun i hi => ?_, fun i hi => ?_⟩ <;> interval_cases i <;> simp_all

theorem match_pclkRise (prev cur : Sample) :
    formatT prev cur &&& 0x080100#22 = 0x000100#22 ↔ prev.getLsbD 8 = false ∧ cur.getLsbD 8 = true := by
  rw [formatT_match]
  constructor
  · rintro ⟨hc, hp⟩
    have h1 : (cur.getLsbD 8 && true) = true := hc 8 (by decide)
    have h2 : (prev.getLsbD 8 && true) = false := hp 8 (by decide)
    rw [Bool.and_true] at h1 h2
    exact ⟨h2, h1⟩
  · rintro ⟨h1, h2⟩
    refine ⟨fun i hi => ?_, fun i hi => ?_⟩ <;> interval_cases i <;> simp_all

theorem match_pclkRiseHref (prev cur : Sample) :
    formatT prev cur &&& 0x080300#22 = 0x000300#22 ↔
      prev.getLsbD 8 = false ∧ cur.getLsbD 8 = true ∧ cur.getLsbD 9 = true := by
  rw [formatT_match]
  constructor
  · rintro ⟨hc, hp⟩
    have h1 : (cur.getLsbD 8 && true) = true := hc 8 (by decide)
    have h2 : (prev.getLsbD 8 && true) = false := hp 8 (by decide)
    have h3 : (cur.getLsbD 9 && true) = true := hc 9 (by decide)
    rw [Bool.and_true] at h1 h2 h3
    exact ⟨h2, h1, h3⟩
  · rintro ⟨h1, h2, h3⟩
    refine ⟨fun i hi => ?_, fun i hi => ?_⟩ <;> interval_cases i <;> simp_all

theorem match_pclkRiseBlank (prev cur : Sample) :
    formatT prev cur &&& 0x080300#22 = 0x000100#22 ↔
      prev.getLsbD 8 = false ∧ cur.getLsbD 8 = true ∧ cur.getLsbD 9 = false := by
  rw [formatT_match]
  constructor
  · rintro ⟨hc, hp⟩
    have h1 : (cur.getLsbD 8 && true) = true := hc 8 (by decide)
    have h2 : (prev.getLsbD 8 && true) = false := hp 8 (by decide)
    have h3 : (cur.getLsbD 9 && true) = false := hc 9 (by decide)
    rw [Bool.and_true] at h1 h2 h3
    exact ⟨h2, h1, h3⟩
  · rintro ⟨h1, h2, h3⟩
    refine ⟨fun i hi => ?_, fun i hi => ?_⟩ <;> interval_cases i <;> simp_all

/-! ## Each row of the event map is its edge -/

/-- A row that matches: the mode column and the masked match. -/
theorem raises_iff (m : RowAdvance) (t : BitVec 22) (e : Event) :
    raises m t e = true ↔ e.inMode m = true ∧ t &&& e.mask = e.pattern := by
  simp [raises]

theorem raises_vsyncRise (m : RowAdvance) (prev cur : Sample) :
    raises m (formatT prev cur) .vsyncRise = rise vsyncLevel prev cur := by
  rw [Bool.eq_iff_iff, raises_iff]
  exact (and_iff_right rfl).trans ((match_vsyncRise prev cur).trans (by simp [rise, vsyncLevel]))

theorem raises_hrefFall (m : RowAdvance) (prev cur : Sample) :
    raises m (formatT prev cur) .hrefFall = (m == .href && fall hrefLevel prev cur) := by
  rw [Bool.eq_iff_iff, raises_iff]
  exact (and_congr_right' (match_hrefFall prev cur)).trans (by simp [Event.inMode, fall, hrefLevel])

theorem raises_pclkRiseCount (m : RowAdvance) (prev cur : Sample) :
    raises m (formatT prev cur) .pclkRiseCount = (m == .count && rise pclkLevel prev cur) := by
  rw [Bool.eq_iff_iff, raises_iff]
  exact (and_congr_right' (match_pclkRise prev cur)).trans (by simp [Event.inMode, rise, pclkLevel])

theorem raises_pclkRiseHref (m : RowAdvance) (prev cur : Sample) :
    raises m (formatT prev cur) .pclkRiseHref = (m == .href && rise pclkLevel prev cur && hrefLevel cur) := by
  rw [Bool.eq_iff_iff, raises_iff]
  exact (and_congr_right' (match_pclkRiseHref prev cur)).trans
    (by simp [Event.inMode, rise, pclkLevel, hrefLevel, and_assoc])

theorem raises_pclkRiseBlank (m : RowAdvance) (prev cur : Sample) :
    raises m (formatT prev cur) .pclkRiseBlank = (m == .href && rise pclkLevel prev cur && !hrefLevel cur) := by
  rw [Bool.eq_iff_iff, raises_iff]
  exact (and_congr_right' (match_pclkRiseBlank prev cur)).trans
    (by simp [Event.inMode, rise, pclkLevel, hrefLevel, and_assoc])

theorem mem_events (m : RowAdvance) (t : BitVec 22) (e : Event) : e ∈ events m t ↔ raises m t e = true := by
  cases e <;> simp [events]

/-! ## Format P -/

theorem pixWord_getLsbD (b : BitVec 1) (r c : Half) (i : Nat) :
    BitVec.getLsbD (w := 33) (b ++ r ++ c) i =
      if i < 16 then c.getLsbD i else if i - 16 < 16 then r.getLsbD (i - 16) else b.getLsbD (i - 16 - 16) := by
  show BitVec.getLsbD (b ++ r ++ c) i = _
  rw [BitVec.getLsbD_append, BitVec.getLsbD_append]

@[simp] theorem pixBuffer_word (b : BitVec 1) (r c : Half) : pixBuffer (b ++ r ++ c) = b := by
  apply BitVec.eq_of_getLsbD_eq
  intro i hi
  obtain rfl : i = 0 := by omega
  rw [pixBuffer, BitVec.getLsbD_extractLsb', pixWord_getLsbD]
  simp

@[simp] theorem pixRow_word (b : BitVec 1) (r c : Half) : pixRow (b ++ r ++ c) = r := by
  apply BitVec.eq_of_getLsbD_eq
  intro i hi
  rw [pixRow, BitVec.getLsbD_extractLsb', pixWord_getLsbD]
  simp [hi]

@[simp] theorem pixCol_word (b : BitVec 1) (r c : Half) : pixCol (b ++ r ++ c) = c := by
  apply BitVec.eq_of_getLsbD_eq
  intro i hi
  rw [pixCol, BitVec.getLsbD_extractLsb', pixWord_getLsbD]
  simp [hi]

end Sys2Proof
end

