-- ==== Sys2Proof/Laws/Memory.lean ====
section
/-! SUPPORT. The memory laws: a read after a write, the canonical form, and the cell keys. -/

namespace Sys2Proof.Machine

theorem Memory.read_write_same (m : Memory) (k : Nat) (v : Byte) : (m.write k v).read k = some v := by
  induction m with
  | nil => simp [Memory.write, Memory.read]
  | cons head m ih =>
    obtain ⟨a, w⟩ := head
    simp only [Memory.write]
    split_ifs with h1 h2
    · simp [Memory.read]
    · simp [Memory.read]
    · simpa [Memory.read, Ne.symm h2] using ih

theorem Memory.read_write_other (m : Memory) {k k' : Nat} (v : Byte) (h : k' ≠ k) :
    (m.write k v).read k' = m.read k' := by
  induction m with
  | nil => simp [Memory.write, Memory.read, h.symm]
  | cons head m ih =>
    obtain ⟨a, w⟩ := head
    simp only [Memory.write]
    split_ifs with h1 h2
    · simp [Memory.read, h.symm]
    · subst h2; simp [Memory.read, h.symm]
    · by_cases ha : a = k' <;> simp [Memory.read, ha, ih]

/-- A key is a lower bound of a memory's keys. -/
def Memory.above (k : Nat) (m : Memory) : Prop := ∀ cell ∈ m, k < cell.1

theorem Memory.wf_cons (a : Nat) (w : Byte) (m : Memory) :
    Memory.wf ((a, w) :: m) = true ↔ m.above a ∧ m.wf = true := by
  induction m generalizing a w with
  | nil => simp [Memory.wf, Memory.above]
  | cons head m ih =>
    obtain ⟨b, x⟩ := head
    constructor
    · intro h
      simp only [Memory.wf, Bool.and_eq_true, decide_eq_true_eq] at h
      refine ⟨?_, h.2⟩
      intro cell hc
      rcases List.mem_cons.mp hc with rfl | hc
      · exact h.1
      · exact h.1.trans (((ih b x).mp h.2).1 cell hc)
    · rintro ⟨h1, h2⟩
      simp only [Memory.wf, Bool.and_eq_true, decide_eq_true_eq]
      exact ⟨h1 (b, x) (List.mem_cons_self ..), h2⟩

theorem Memory.mem_write {m : Memory} {k : Nat} {v : Byte} {cell : Host.Cell} (h : cell ∈ m.write k v) :
    cell = (k, v) ∨ cell ∈ m := by
  induction m with
  | nil => simpa [Memory.write] using h
  | cons head m ih =>
    obtain ⟨a, w⟩ := head
    simp only [Memory.write] at h
    split_ifs at h with h1 h2
    · exact (List.mem_cons.mp h).imp_right id
    · exact (List.mem_cons.mp h).imp_right (List.mem_cons_of_mem _)
    · rcases List.mem_cons.mp h with rfl | h
      · exact .inr (List.mem_cons_self ..)
      · exact (ih h).imp_right (List.mem_cons_of_mem _)

theorem Memory.write_wf {m : Memory} (k : Nat) (v : Byte) (h : m.wf = true) : (m.write k v).wf = true := by
  induction m with
  | nil => rfl
  | cons head m ih =>
    obtain ⟨a, w⟩ := head
    obtain ⟨ha, hm⟩ := (Memory.wf_cons a w m).mp h
    simp only [Memory.write]
    split_ifs with h1 h2
    · refine (Memory.wf_cons k v _).mpr ⟨?_, h⟩
      intro cell hc
      rcases List.mem_cons.mp hc with rfl | hc
      · exact h1
      · exact h1.trans (ha cell hc)
    · subst h2; exact (Memory.wf_cons k v m).mpr ⟨ha, hm⟩
    · refine (Memory.wf_cons a w _).mpr ⟨?_, ih hm⟩
      intro cell hc
      rcases Memory.mem_write hc with rfl | hc
      · show a < k; omega
      · exact ha cell hc

/-- A key below all of a memory's keys is not listed. -/
theorem Memory.read_of_above {m : Memory} {k : Nat} (h : m.above k) : m.read k = none := by
  induction m with
  | nil => rfl
  | cons head m ih =>
    obtain ⟨a, w⟩ := head
    have hk : k < a := h (a, w) (List.mem_cons_self ..)
    have ha : a ≠ k := by omega
    simpa [Memory.read, ha] using ih fun cell hc => h cell (List.mem_cons_of_mem _ hc)

/-- The three fields of a key. -/
theorem cellKey_eq (b : BitVec 1) (r c : Half) :
    cellKey b r c = b.toNat * 2 ^ 32 + r.toNat * 2 ^ 16 + c.toNat := by
  have hc : c.toNat < 2 ^ 16 := c.isLt
  have hr : r.toNat < 2 ^ 16 := r.isLt
  rw [cellKey, BitVec.toNat_append, BitVec.toNat_append, ← Nat.shiftLeft_add_eq_or_of_lt hr,
    ← Nat.shiftLeft_add_eq_or_of_lt hc, Nat.shiftLeft_eq, Nat.shiftLeft_eq]
  omega

/-- Different cells have different keys. -/
theorem cellKey_inj {b b' : BitVec 1} {r r' c c' : Half} (h : cellKey b r c = cellKey b' r' c') :
    b = b' ∧ r = r' ∧ c = c' := by
  simp only [cellKey_eq] at h
  have := c.isLt; have := c'.isLt; have := r.isLt; have := r'.isLt
  refine ⟨?_, ?_, ?_⟩ <;> apply BitVec.eq_of_toNat_eq <;> omega

theorem cellKey_lt (b : BitVec 1) (r c : Half) : cellKey b r c < 2 ^ 33 := (b ++ r ++ c).isLt

/-- The row field of a key. -/
theorem cellKey_row (b : BitVec 1) (r c : Half) : BitVec.ofNat 16 (cellKey b r c / 2 ^ 16) = r := by
  rw [cellKey_eq]
  have := c.isLt; have := r.isLt
  apply BitVec.eq_of_toNat_eq
  rw [BitVec.toNat_ofNat]
  omega

/-- The column field of a key. -/
theorem cellKey_col (b : BitVec 1) (r c : Half) : BitVec.ofNat 16 (cellKey b r c) = c := by
  rw [cellKey_eq]
  have := c.isLt
  apply BitVec.eq_of_toNat_eq
  rw [BitVec.toNat_ofNat]
  omega

end Sys2Proof.Machine
end

