-- ==== Sys2Proof/Laws/State.lean ====
section
/-! SUPPORT. The fields of the state after each named update, one lemma per field and update. -/

namespace Sys2Proof.Machine

@[simp] theorem State.setBlk_blk (s : State) (b : Block) : (s.setBlk b).blk = b := rfl
@[simp] theorem State.setBlk_cfg (s : State) (b : Block) : (s.setBlk b).cfg = s.cfg := rfl
@[simp] theorem State.setBlk_powerOnIndex (s : State) (b : Block) : (s.setBlk b).powerOnIndex = s.powerOnIndex := rfl
@[simp] theorem State.setBlk_pending (s : State) (b : Block) : (s.setBlk b).pending = s.pending := rfl
@[simp] theorem State.setBlk_response (s : State) (b : Block) : (s.setBlk b).response = s.response := rfl
@[simp] theorem State.setBlk_history (s : State) (b : Block) : (s.setBlk b).history = s.history := rfl

@[simp] theorem State.record_blk (s : State) (r : Record) : (s.record r).blk = s.blk := rfl
@[simp] theorem State.record_cfg (s : State) (r : Record) : (s.record r).cfg = s.cfg := rfl
@[simp] theorem State.record_powerOnIndex (s : State) (r : Record) : (s.record r).powerOnIndex = s.powerOnIndex := rfl
@[simp] theorem State.record_pending (s : State) (r : Record) : (s.record r).pending = s.pending := rfl
@[simp] theorem State.record_response (s : State) (r : Record) : (s.record r).response = s.response := rfl
@[simp] theorem State.record_history (s : State) (r : Record) : (s.record r).history = s.history ++ [r] := rfl

@[simp] theorem State.raise_blk (s : State) (c : Condition) : (s.raise c).blk = s.blk := rfl
@[simp] theorem State.raise_cfg (s : State) (c : Condition) : (s.raise c).cfg = s.cfg := rfl
@[simp] theorem State.raise_powerOnIndex (s : State) (c : Condition) : (s.raise c).powerOnIndex = s.powerOnIndex := rfl
@[simp] theorem State.raise_pending (s : State) (c : Condition) : (s.raise c).pending = s.pending := rfl
@[simp] theorem State.raise_response (s : State) (c : Condition) : (s.raise c).response = s.response := rfl
@[simp] theorem State.raise_history (s : State) (c : Condition) : (s.raise c).history = s.history ++ [.condition c] := rfl

@[simp] theorem State.respond_blk (s : State) (r : Response) : (s.respond r).blk = s.blk := rfl
@[simp] theorem State.respond_cfg (s : State) (r : Response) : (s.respond r).cfg = s.cfg := rfl
@[simp] theorem State.respond_powerOnIndex (s : State) (r : Response) : (s.respond r).powerOnIndex = s.powerOnIndex := rfl
@[simp] theorem State.respond_pending (s : State) (r : Response) : (s.respond r).pending = s.pending := rfl
@[simp] theorem State.respond_response (s : State) (r : Response) : (s.respond r).response = some r := rfl
@[simp] theorem State.respond_history (s : State) (r : Response) : (s.respond r).history = s.history := rfl

@[simp] theorem State.respondOk_blk (s : State) (d : Word32) : (s.respondOk d).blk = s.blk := rfl
@[simp] theorem State.respondOk_cfg (s : State) (d : Word32) : (s.respondOk d).cfg = s.cfg := rfl
@[simp] theorem State.respondOk_powerOnIndex (s : State) (d : Word32) : (s.respondOk d).powerOnIndex = s.powerOnIndex := rfl
@[simp] theorem State.respondOk_pending (s : State) (d : Word32) : (s.respondOk d).pending = s.pending := rfl
@[simp] theorem State.respondOk_response (s : State) (d : Word32) : (s.respondOk d).response = some (.reg .ok d) := rfl
@[simp] theorem State.respondOk_history (s : State) (d : Word32) : (s.respondOk d).history = s.history := rfl

end Sys2Proof.Machine
end

