-- ==== Sys2Proof/Laws/Ops.lean ====
section
/-! SUPPORT. What each shared operation can do, said once. -/

namespace Sys2Proof.Machine

/-! ## Sequencing -/

@[simp] theorem andThen_next (s : State) (f : State → Result) : andThen (.next s) f = f s := rfl

theorem andThen_eq_next {r : Result} {f : State → Result} {t : State} :
    andThen r f = .next t ↔ ∃ s, r = .next s ∧ f s = .next t := by
  cases r <;> simp [andThen]

theorem andThen_assoc (r : Result) (f g : State → Result) :
    andThen (andThen r f) g = andThen r fun s => andThen (f s) g := by
  cases r <;> rfl

@[simp] theorem runIf_true (f : State → Result) (s : State) : runIf true f s = f s := rfl

@[simp] theorem runIf_false (f : State → Result) (s : State) : runIf false f s = .next s := rfl

/-- A guarded call that answers either ran or was skipped. -/
theorem runIf_eq_next {c : Bool} {f : State → Result} {s t : State} :
    runIf c f s = .next t ↔ (c = true ∧ f s = .next t) ∨ (c = false ∧ s = t) := by
  cases c <;> simp [runIf]

/-! ## The frame-buffer space -/

theorem inSpace_iff (cfg : Config) (r c : Half) :
    inSpace cfg r c = true ↔ r.toNat < cfg.rows ∧ c.toNat < cfg.cols := by simp [inSpace]

/-- A buffer write that answers was inside the space, and wrote the one cell. -/
theorem bufWrite_eq_next {s t : State} {b : BitVec 1} {r c : Half} {v : Byte} :
    bufWrite s b r c v = .next t ↔
      inSpace s.cfg r c = true ∧ t = s.setBlk { s.blk with fb := s.blk.fb.write (cellKey b r c) v } := by
  unfold bufWrite
  split_ifs with h <;> simp [h, eq_comm]

/-- Reading the cell just written. -/
theorem bufRead_write_same (s : State) (b : BitVec 1) (r c : Half) (v : Byte) :
    (s.blk.fb.write (cellKey b r c) v).read (cellKey b r c) = some v := Memory.read_write_same ..

/-- Reading any other cell. -/
theorem read_write_otherCell (m : Memory) {b b' : BitVec 1} {r r' c c' : Half} (v : Byte)
    (h : ¬ (b' = b ∧ r' = r ∧ c' = c)) :
    (m.write (cellKey b r c) v).read (cellKey b' r' c') = m.read (cellKey b' r' c') :=
  Memory.read_write_other m v fun hk => h (cellKey_inj hk)

/-! ## The tests on the cursor -/

theorem rowDone_iff (s : State) : rowDone s = true ↔ s.cfg.rows ≤ s.blk.row.toNat := by simp [rowDone]

theorem colDone_iff (s : State) : colDone s = true ↔ s.cfg.cols ≤ s.blk.col.toNat := by simp [colDone]

theorem colLast_iff (s : State) : colLast s = true ↔ s.blk.col.toNat + 1 = s.cfg.cols := by simp [colLast]

@[simp] theorem rowDone_record (s : State) (r : Record) : rowDone (s.record r) = rowDone s := rfl

@[simp] theorem colDone_record (s : State) (r : Record) : colDone (s.record r) = colDone s := rfl

/-! ## The counters -/

/-- R12's `min(x, 0xFFFFFFFF)`, written out. -/
theorem sat32_eq (n : Nat) : BitVec.ofNat 32 (min n 0xFFFFFFFF) = sat32 n := rfl

theorem sat32_toNat (n : Nat) : (sat32 n).toNat = min n 0xFFFFFFFF := by
  unfold sat32
  rw [BitVec.toNat_ofNat]
  omega

/-- Counting on from a saturated sum. -/
theorem sat32_add (n k : Nat) : sat32 ((sat32 n).toNat + k) = sat32 (n + k) := by
  apply BitVec.eq_of_toNat_eq
  rw [sat32_toNat, sat32_toNat, sat32_toNat]
  omega

theorem sat32_toNat_self (x : Word32) : sat32 x.toNat = x := by
  apply BitVec.eq_of_toNat_eq
  rw [sat32_toNat]
  have := x.isLt
  omega

/-! ## The events: each whole, by cases -/

/-- A pixel write that answers: the cursor named a cell, which holds the byte, and the cursor advanced. -/
theorem writePixel_eq_next {cur : Sample} {adv : State → State} {s t : State} :
    writePixel cur adv s = .next t ↔
      inSpace s.cfg s.blk.row s.blk.col = true ∧
      t = adv (s.setBlk { s.blk with
        fb := s.blk.fb.write (cellKey s.blk.active s.blk.row s.blk.col) (pixelByte cur) }) := by
  simp only [writePixel, andThen_eq_next, bufWrite_eq_next, Host.Outcome.next.injEq]
  constructor
  · rintro ⟨u, ⟨h, rfl⟩, rfl⟩; exact ⟨h, rfl⟩
  · rintro ⟨h, rfl⟩; exact ⟨_, ⟨h, rfl⟩, rfl⟩

/-- A pixel write at a cursor that names a cell. -/
theorem writePixel_inSpace {cur : Sample} {adv : State → State} {s : State}
    (h : inSpace s.cfg s.blk.row s.blk.col = true) :
    writePixel cur adv s = .next (adv (s.setBlk { s.blk with
      fb := s.blk.fb.write (cellKey s.blk.active s.blk.row s.blk.col) (pixelByte cur) })) :=
  writePixel_eq_next.mpr ⟨h, rfl⟩

theorem execPclkRiseCount_clamped {cur : Sample} {s : State} (h : rowDone s = true) :
    execPclkRiseCount cur s = .next (captureOverrun (s.record (.event .pclkRiseCount))) := by
  simp [execPclkRiseCount, h]

theorem execPclkRiseCount_open {cur : Sample} {s : State} (h : rowDone s = false) :
    execPclkRiseCount cur s = writePixel cur advanceByCount (s.record (.event .pclkRiseCount)) := by
  simp [execPclkRiseCount, h]

theorem execPclkRiseHref_clamped {cur : Sample} {s : State} (h : rowDone s = true) :
    execPclkRiseHref cur s = .next (captureOverrun (s.record (.event .pclkRiseHref))) := by
  simp [execPclkRiseHref, h]

theorem execPclkRiseHref_full {cur : Sample} {s : State} (h : rowDone s = false) (hc : colDone s = true) :
    execPclkRiseHref cur s = .next (rowLengthMismatch (captureOverrun (s.record (.event .pclkRiseHref)))) := by
  simp [execPclkRiseHref, h, hc]

theorem execPclkRiseHref_open {cur : Sample} {s : State} (h : rowDone s = false) (hc : colDone s = false) :
    execPclkRiseHref cur s = writePixel cur advanceCol (s.record (.event .pclkRiseHref)) := by
  simp [execPclkRiseHref, h, hc]

theorem execHrefFall_clamped {s : State} (h : rowDone s = true) :
    execHrefFall s = .next (s.record (.event .hrefFall)) := by
  simp [execHrefFall, h]

theorem execHrefFall_open {s : State} (h : rowDone s = false) :
    execHrefFall s = .next (advanceRow (if s.blk.col.toNat ≠ s.cfg.cols then
      rowLengthMismatch (s.record (.event .hrefFall)) else s.record (.event .hrefFall))) := by
  simp only [execHrefFall, rowDone_record, h, Bool.false_eq_true, if_false]
  rfl

/-- What PCLK_RISE_COUNT can do. -/
theorem execPclkRiseCount_cases {cur : Sample} {s t : State} (h : execPclkRiseCount cur s = .next t) :
    (rowDone s = true ∧ t = captureOverrun (s.record (.event .pclkRiseCount))) ∨
    (rowDone s = false ∧ inSpace s.cfg s.blk.row s.blk.col = true ∧
      t = advanceByCount ((s.record (.event .pclkRiseCount)).setBlk { s.blk with
        fb := s.blk.fb.write (cellKey s.blk.active s.blk.row s.blk.col) (pixelByte cur) })) := by
  cases hr : rowDone s
  · simp only [execPclkRiseCount, rowDone_record, hr, Bool.false_eq_true, if_false] at h
    exact .inr ⟨rfl, (writePixel_eq_next.mp h).1, (writePixel_eq_next.mp h).2⟩
  · exact .inl ⟨rfl, by simpa [execPclkRiseCount, hr] using h.symm⟩

/-- What PCLK_RISE_HREF can do. -/
theorem execPclkRiseHref_cases {cur : Sample} {s t : State} (h : execPclkRiseHref cur s = .next t) :
    (rowDone s = true ∧ t = captureOverrun (s.record (.event .pclkRiseHref))) ∨
    (rowDone s = false ∧ colDone s = true ∧
      t = rowLengthMismatch (captureOverrun (s.record (.event .pclkRiseHref)))) ∨
    (rowDone s = false ∧ colDone s = false ∧ inSpace s.cfg s.blk.row s.blk.col = true ∧
      t = advanceCol ((s.record (.event .pclkRiseHref)).setBlk { s.blk with
        fb := s.blk.fb.write (cellKey s.blk.active s.blk.row s.blk.col) (pixelByte cur) })) := by
  cases hr : rowDone s
  · cases hc : colDone s
    · simp only [execPclkRiseHref, rowDone_record, colDone_record, hr, hc, Bool.false_eq_true, if_false] at h
      exact .inr (.inr ⟨rfl, rfl, (writePixel_eq_next.mp h).1, (writePixel_eq_next.mp h).2⟩)
    · exact .inr (.inl ⟨rfl, rfl, by simpa [execPclkRiseHref, hr, hc] using h.symm⟩)
  · exact .inl ⟨rfl, by simpa [execPclkRiseHref, hr] using h.symm⟩

/-- What VSYNC_RISE can do. -/
theorem execVsyncRise_cases {s t : State} (h : execVsyncRise s = .next t) :
    (s.blk.ready = true ∧ t = exposeFrame (handoffMiss (swapBuffers (s.record (.event .vsyncRise))))) ∨
    (s.blk.ready = false ∧ t = exposeFrame (swapBuffers (s.record (.event .vsyncRise)))) := by
  have hs : (swapBuffers (s.record (.event .vsyncRise))).blk.ready = s.blk.ready := rfl
  simp only [execVsyncRise, hs, Host.Outcome.next.injEq] at h
  cases hr : s.blk.ready
  · exact .inr ⟨rfl, by simpa [hr] using h.symm⟩
  · exact .inl ⟨rfl, by simpa [hr] using h.symm⟩

/-- What HREF_FALL can do. -/
theorem execHrefFall_cases {s t : State} (h : execHrefFall s = .next t) :
    (rowDone s = true ∧ t = s.record (.event .hrefFall)) ∨
    (rowDone s = false ∧ s.blk.col.toNat ≠ s.cfg.cols ∧
      t = advanceRow (rowLengthMismatch (s.record (.event .hrefFall)))) ∨
    (rowDone s = false ∧ s.blk.col.toNat = s.cfg.cols ∧ t = advanceRow (s.record (.event .hrefFall))) := by
  cases hr : rowDone s
  · by_cases hc : s.blk.col.toNat = s.cfg.cols
    · exact .inr (.inr ⟨rfl, hc, by simpa [execHrefFall, hr, hc] using h.symm⟩)
    · exact .inr (.inl ⟨rfl, hc, by simpa [execHrefFall, hr, hc] using h.symm⟩)
  · exact .inl ⟨rfl, by simpa [execHrefFall, hr] using h.symm⟩

/-- What a sample step can do: it primes, or it runs the five guarded events one after the other. -/
theorem execSample_cases {cur : Sample} {s t : State} (h : execSample cur s = .next t) :
    (s.blk.primed = false ∧ t = takeSample cur s) ∨
    (s.blk.primed = true ∧ ∃ s1 s2 s3 s4 s5,
      runIf (raises s.cfg.rowAdvance (formatT s.blk.prev cur) .vsyncRise && s.blk.ctrlVsyncEn)
        execVsyncRise s = .next s1 ∧
      runIf (raises s.cfg.rowAdvance (formatT s.blk.prev cur) .hrefFall && s.blk.ctrlPclkEn)
        execHrefFall s1 = .next s2 ∧
      runIf (raises s.cfg.rowAdvance (formatT s.blk.prev cur) .pclkRiseCount && s.blk.ctrlPclkEn)
        (execPclkRiseCount cur) s2 = .next s3 ∧
      runIf (raises s.cfg.rowAdvance (formatT s.blk.prev cur) .pclkRiseHref && s.blk.ctrlPclkEn)
        (execPclkRiseHref cur) s3 = .next s4 ∧
      runIf (raises s.cfg.rowAdvance (formatT s.blk.prev cur) .pclkRiseBlank && s.blk.ctrlPclkEn)
        (execPclkRiseBlank cur) s4 = .next s5 ∧
      t = takeSample cur s5) := by
  cases hp : s.blk.primed
  · exact .inl ⟨rfl, by simpa [execSample, hp] using h.symm⟩
  · simp only [execSample, hp, Bool.not_true, Bool.false_eq_true, if_false, andThen_eq_next,
      Host.Outcome.next.injEq] at h
    obtain ⟨s1, h1, s2, h2, s3, h3, s4, h4, s5, h5, rfl⟩ := h
    exact .inr ⟨rfl, s1, s2, s3, s4, s5, h1, h2, h3, h4, h5, rfl⟩

end Sys2Proof.Machine
end

