-- ==== Sys2Proof/Laws/PerInstr.lean ====
section
/-! SUPPORT. The family RoundTrip: of each constructor of Instr, that decoding its encoding gives it back with every operand
at every value. -/

namespace Sys2Proof.Laws.RoundTrip

/-- The word of an instruction that exists in mode `m` decodes to it. -/
def Statement (i : Instr) : Prop := ∀ m : RowAdvance, i.wf m = true → decode m (encode i) = .ok i

/-- The history sample of an encoded PCLK event differs from the new one in PCLK alone. -/
theorem clearPclk_getLsbD (cur : Sample) :
    (cur &&& 0x6FF#11).getLsbD 10 = cur.getLsbD 10 ∧ (cur &&& 0x6FF#11).getLsbD 9 = cur.getLsbD 9 ∧
      (cur &&& 0x6FF#11).getLsbD 8 = false := by
  refine ⟨?_, ?_, ?_⟩ <;> rw [BitVec.getLsbD_and]
  · exact Bool.and_true _
  · exact Bool.and_true _
  · exact Bool.and_false _

/-- An encoded PCLK event raises no sync event. -/
theorem pclkWord_sync (m : RowAdvance) (cur : Sample) :
    raises m (formatT (cur &&& 0x6FF#11) cur) .vsyncRise = false ∧
      raises m (formatT (cur &&& 0x6FF#11) cur) .hrefFall = false := by
  obtain ⟨h10, h9, -⟩ := clearPclk_getLsbD cur
  rw [raises_vsyncRise, raises_hrefFall, rise, fall]
  unfold vsyncLevel hrefLevel
  rw [h10, h9]
  simp

theorem sample (s : Sample) : Statement (.sample s) := fun _ _ => rfl
theorem vsyncRise : Statement .vsyncRise := fun m _ => by cases m <;> rfl
theorem hrefFall : Statement .hrefFall := fun m h => by cases m <;> first | rfl | cases h

theorem pclkRiseCount (cur : Sample) : Statement (.pclkRiseCount cur) := by
  intro m h
  obtain ⟨hv, hh⟩ := pclkWord_sync m cur
  cases m
  · have hp : cur.getLsbD 8 = true := h
    have hr : raises .count (formatT (cur &&& 0x6FF#11) cur) .pclkRiseCount = true := by
      rw [raises_pclkRiseCount, rise, pclkLevel, pclkLevel, (clearPclk_getLsbD cur).2.2, hp]; rfl
    simp [decode, encode, pclkWord, decodeEvents, events, List.filter, hv, hh, hr, Event.toInstr]
  · cases h

theorem pclkRiseHref (cur : Sample) : Statement (.pclkRiseHref cur) := by
  intro m h
  obtain ⟨hv, hh⟩ := pclkWord_sync m cur
  cases m
  · cases h
  · have hp : (cur.getLsbD 8 && cur.getLsbD 9) = true := h
    rw [Bool.and_eq_true] at hp
    have hc : raises .href (formatT (cur &&& 0x6FF#11) cur) .pclkRiseCount = false := by
      rw [raises_pclkRiseCount]; rfl
    have hr : raises .href (formatT (cur &&& 0x6FF#11) cur) .pclkRiseHref = true := by
      rw [raises_pclkRiseHref, rise, pclkLevel, pclkLevel, (clearPclk_getLsbD cur).2.2, hp.1, hrefLevel, hp.2]; rfl
    simp [decode, encode, pclkWord, decodeEvents, events, List.filter, hv, hh, hc, hr, Event.toInstr]

theorem pclkRiseBlank (cur : Sample) : Statement (.pclkRiseBlank cur) := by
  intro m h
  obtain ⟨hv, hh⟩ := pclkWord_sync m cur
  cases m
  · cases h
  · have hp : (cur.getLsbD 8 && !cur.getLsbD 9) = true := h
    rw [Bool.and_eq_true, Bool.not_eq_true'] at hp
    have hc : raises .href (formatT (cur &&& 0x6FF#11) cur) .pclkRiseCount = false := by
      rw [raises_pclkRiseCount]; rfl
    have hf : raises .href (formatT (cur &&& 0x6FF#11) cur) .pclkRiseHref = false := by
      rw [raises_pclkRiseHref, hrefLevel, hp.2, Bool.and_false]
    have hr : raises .href (formatT (cur &&& 0x6FF#11) cur) .pclkRiseBlank = true := by
      rw [raises_pclkRiseBlank, rise, pclkLevel, pclkLevel, (clearPclk_getLsbD cur).2.2, hp.1, hrefLevel, hp.2]; rfl
    simp [decode, encode, pclkWord, decodeEvents, events, List.filter, hv, hh, hc, hf, hr, Event.toInstr]

theorem rdCtrl : Statement .rdCtrl := fun _ _ => rfl
theorem wrCtrl (wdata : Word32) : Statement (.wrCtrl wdata) := fun _ _ => rfl
theorem rdStatus : Statement .rdStatus := fun _ _ => rfl
theorem wrStatus (wdata : Word32) : Statement (.wrStatus wdata) := fun _ _ => rfl
theorem rdCursor : Statement .rdCursor := fun _ _ => rfl
theorem wrCursor (wdata : Word32) : Statement (.wrCursor wdata) := fun _ _ => rfl
theorem rdOverrunCount : Statement .rdOverrunCount := fun _ _ => rfl
theorem wrOverrunCount (wdata : Word32) : Statement (.wrOverrunCount wdata) := fun _ _ => rfl
theorem rdHandoffMissCount : Statement .rdHandoffMissCount := fun _ _ => rfl
theorem wrHandoffMissCount (wdata : Word32) : Statement (.wrHandoffMissCount wdata) := fun _ _ => rfl
theorem rdFrameCount : Statement .rdFrameCount := fun _ _ => rfl
theorem wrFrameCount (wdata : Word32) : Statement (.wrFrameCount wdata) := fun _ _ => rfl
theorem rdGeometry : Statement .rdGeometry := fun _ _ => rfl
theorem wrGeometry (wdata : Word32) : Statement (.wrGeometry wdata) := fun _ _ => rfl
theorem rdConfig : Statement .rdConfig := fun _ _ => rfl
theorem wrConfig (wdata : Word32) : Statement (.wrConfig wdata) := fun _ _ => rfl
theorem rdPins : Statement .rdPins := fun _ _ => rfl
theorem wrPins (wdata : Word32) : Statement (.wrPins wdata) := fun _ _ => rfl

theorem pixelRead (b : BitVec 1) (r c : Half) : Statement (.pixelRead b r c) := fun m _ => by
  simp [decode, encode]

theorem reset : Statement .reset := fun _ _ => rfl

end Sys2Proof.Laws.RoundTrip
end

