-- ==== Sys2Proof/Laws/Sample.lean ====
section
/-! SUPPORT. What the events leave alone, and how a property of states is carried through a sample step. -/

namespace Sys2Proof.Machine

/-- What no event writes: the enables, the detector's history, the configuration, the inputs and the response. -/
structure EventFrame (s t : State) : Prop where
  ctrlPclkEn : t.blk.ctrlPclkEn = s.blk.ctrlPclkEn
  ctrlVsyncEn : t.blk.ctrlVsyncEn = s.blk.ctrlVsyncEn
  ctrlIrqEn : t.blk.ctrlIrqEn = s.blk.ctrlIrqEn
  prev : t.blk.prev = s.blk.prev
  primed : t.blk.primed = s.blk.primed
  cfg : t.cfg = s.cfg
  powerOnIndex : t.powerOnIndex = s.powerOnIndex
  pending : t.pending = s.pending
  response : t.response = s.response

theorem EventFrame.refl (s : State) : EventFrame s s := ⟨rfl, rfl, rfl, rfl, rfl, rfl, rfl, rfl, rfl⟩

theorem EventFrame.trans {s t u : State} (h : EventFrame s t) (k : EventFrame t u) : EventFrame s u :=
  ⟨k.1.trans h.1, k.2.trans h.2, k.3.trans h.3, k.4.trans h.4, k.5.trans h.5, k.6.trans h.6, k.7.trans h.7,
    k.8.trans h.8, k.9.trans h.9⟩

theorem execVsyncRise_frame {s t : State} (h : execVsyncRise s = .next t) : EventFrame s t := by
  rcases execVsyncRise_cases h with ⟨-, rfl⟩ | ⟨-, rfl⟩ <;> constructor <;> rfl

theorem execHrefFall_frame {s t : State} (h : execHrefFall s = .next t) : EventFrame s t := by
  rcases execHrefFall_cases h with ⟨-, rfl⟩ | ⟨-, -, rfl⟩ | ⟨-, -, rfl⟩ <;> constructor <;> rfl

theorem execPclkRiseCount_frame {cur : Sample} {s t : State} (h : execPclkRiseCount cur s = .next t) :
    EventFrame s t := by
  rcases execPclkRiseCount_cases h with ⟨-, rfl⟩ | ⟨-, -, rfl⟩
  · constructor <;> rfl
  · simp only [advanceByCount]
    split_ifs <;> constructor <;> rfl

theorem execPclkRiseHref_frame {cur : Sample} {s t : State} (h : execPclkRiseHref cur s = .next t) :
    EventFrame s t := by
  rcases execPclkRiseHref_cases h with ⟨-, rfl⟩ | ⟨-, -, rfl⟩ | ⟨-, -, -, rfl⟩ <;> constructor <;> rfl

theorem execPclkRiseBlank_frame {cur : Sample} {s t : State} (h : execPclkRiseBlank cur s = .next t) :
    EventFrame s t := by
  obtain rfl := Host.Outcome.next.inj h.symm
  constructor <;> rfl

/-- A guarded call keeps what the call keeps. -/
theorem runIf_keeps {P : State → Prop} {c : Bool} {f : State → Result} {s t : State} (h : runIf c f s = .next t)
    (hs : P s) (hf : c = true → ∀ a b, P a → f a = .next b → P b) : P t := by
  rcases runIf_eq_next.mp h with ⟨hc, h⟩ | ⟨-, rfl⟩
  · exact hf hc s t hs h
  · exact hs

/-- A guarded call answers where the call does. -/
theorem runIf_answers {P : State → Prop} {c : Bool} {f : State → Result} {s : State} (hs : P s)
    (hf : c = true → ∀ a, P a → ∃ b, f a = .next b ∧ P b) : ∃ t, runIf c f s = .next t ∧ P t := by
  cases c
  · exact ⟨s, rfl, hs⟩
  · exact hf rfl s hs

/-- A property that every event raised and enabled keeps, and that taking the sample keeps, is kept by the sample step. -/
theorem execSample_keeps {P : State → Prop} {cur : Sample} {s t : State} (h : execSample cur s = .next t) (hs : P s)
    (hv : raises s.cfg.rowAdvance (formatT s.blk.prev cur) .vsyncRise = true → s.blk.ctrlVsyncEn = true →
      ∀ a b, P a → execVsyncRise a = .next b → P b)
    (hh : raises s.cfg.rowAdvance (formatT s.blk.prev cur) .hrefFall = true → s.blk.ctrlPclkEn = true →
      ∀ a b, P a → execHrefFall a = .next b → P b)
    (hc : raises s.cfg.rowAdvance (formatT s.blk.prev cur) .pclkRiseCount = true → s.blk.ctrlPclkEn = true →
      ∀ a b, P a → execPclkRiseCount cur a = .next b → P b)
    (hr : raises s.cfg.rowAdvance (formatT s.blk.prev cur) .pclkRiseHref = true → s.blk.ctrlPclkEn = true →
      ∀ a b, P a → execPclkRiseHref cur a = .next b → P b)
    (hb : ∀ a b, P a → execPclkRiseBlank cur a = .next b → P b)
    (ht : ∀ a, P a → P (takeSample cur a)) : P t := by
  rcases execSample_cases h with ⟨-, rfl⟩ | ⟨-, s1, s2, s3, s4, s5, h1, h2, h3, h4, h5, rfl⟩
  · exact ht s hs
  · have p1 := runIf_keeps h1 hs fun c => hv (Bool.and_eq_true _ _ ▸ c).1 (Bool.and_eq_true _ _ ▸ c).2
    have p2 := runIf_keeps h2 p1 fun c => hh (Bool.and_eq_true _ _ ▸ c).1 (Bool.and_eq_true _ _ ▸ c).2
    have p3 := runIf_keeps h3 p2 fun c => hc (Bool.and_eq_true _ _ ▸ c).1 (Bool.and_eq_true _ _ ▸ c).2
    have p4 := runIf_keeps h4 p3 fun c => hr (Bool.and_eq_true _ _ ▸ c).1 (Bool.and_eq_true _ _ ▸ c).2
    exact ht s5 (runIf_keeps h5 p4 fun _ => hb)

/-- Where every event raised and enabled answers, the sample step answers. -/
theorem execSample_answers {P : State → Prop} {cur : Sample} {s : State} (hs : P s)
    (hv : raises s.cfg.rowAdvance (formatT s.blk.prev cur) .vsyncRise = true →
      ∀ a, P a → ∃ b, execVsyncRise a = .next b ∧ P b)
    (hh : raises s.cfg.rowAdvance (formatT s.blk.prev cur) .hrefFall = true →
      ∀ a, P a → ∃ b, execHrefFall a = .next b ∧ P b)
    (hc : raises s.cfg.rowAdvance (formatT s.blk.prev cur) .pclkRiseCount = true →
      ∀ a, P a → ∃ b, execPclkRiseCount cur a = .next b ∧ P b)
    (hr : raises s.cfg.rowAdvance (formatT s.blk.prev cur) .pclkRiseHref = true →
      ∀ a, P a → ∃ b, execPclkRiseHref cur a = .next b ∧ P b)
    (hb : ∀ a, P a → ∃ b, execPclkRiseBlank cur a = .next b ∧ P b) : ∃ t, execSample cur s = .next t := by
  cases hp : s.blk.primed
  · exact ⟨takeSample cur s, by simp only [execSample, hp, Bool.not_false, if_true]⟩
  · obtain ⟨s1, h1, p1⟩ := runIf_answers (c := raises s.cfg.rowAdvance (formatT s.blk.prev cur) .vsyncRise &&
      s.blk.ctrlVsyncEn) hs fun c => hv (Bool.and_eq_true _ _ ▸ c).1
    obtain ⟨s2, h2, p2⟩ := runIf_answers (c := raises s.cfg.rowAdvance (formatT s.blk.prev cur) .hrefFall &&
      s.blk.ctrlPclkEn) p1 fun c => hh (Bool.and_eq_true _ _ ▸ c).1
    obtain ⟨s3, h3, p3⟩ := runIf_answers (c := raises s.cfg.rowAdvance (formatT s.blk.prev cur) .pclkRiseCount &&
      s.blk.ctrlPclkEn) p2 fun c => hc (Bool.and_eq_true _ _ ▸ c).1
    obtain ⟨s4, h4, p4⟩ := runIf_answers (c := raises s.cfg.rowAdvance (formatT s.blk.prev cur) .pclkRiseHref &&
      s.blk.ctrlPclkEn) p3 fun c => hr (Bool.and_eq_true _ _ ▸ c).1
    obtain ⟨s5, h5, -⟩ := runIf_answers (c := raises s.cfg.rowAdvance (formatT s.blk.prev cur) .pclkRiseBlank &&
      s.blk.ctrlPclkEn) p4 fun _ => hb
    exact ⟨takeSample cur s5, by
      simp only [execSample, hp, Bool.not_true, Bool.false_eq_true, if_false, h1, h2, h3, h4, h5, andThen_next]⟩

/-- Of what no event writes, a sample step writes only the detector's history. -/
theorem execSample_frame {cur : Sample} {s t : State} (h : execSample cur s = .next t) :
    EventFrame (takeSample cur s) t := by
  rcases execSample_cases h with ⟨-, rfl⟩ | ⟨-, s1, s2, s3, s4, s5, h1, h2, h3, h4, h5, rfl⟩
  · exact .refl _
  · have step {c : Bool} {f : State → Result} {a b : State} (k : runIf c f a = .next b)
        (hf : ∀ x y, f x = .next y → EventFrame x y) (hs : EventFrame s a) : EventFrame s b :=
      runIf_keeps k hs fun _ x y hx hy => hx.trans (hf x y hy)
    have e : EventFrame s s5 :=
      step h5 (fun _ _ => execPclkRiseBlank_frame) <| step h4 (fun _ _ => execPclkRiseHref_frame) <|
      step h3 (fun _ _ => execPclkRiseCount_frame) <| step h2 (fun _ _ => execHrefFall_frame) <|
      step h1 (fun _ _ => execVsyncRise_frame) (.refl s)
    exact ⟨e.1, e.2, e.3, rfl, rfl, e.6, e.7, e.8, e.9⟩

end Sys2Proof.Machine
end

