-- ==== Sys2Proof/Laws/Step.lean ====
section
/-! SUPPORT. What a step can do: what `fetch` takes, and one inversion lemma for `step`. -/

namespace Sys2Proof.Machine

@[simp] theorem State.begin_blk (s : State) (p : List Instant) : (s.begin p).blk = s.blk := rfl
@[simp] theorem State.begin_cfg (s : State) (p : List Instant) : (s.begin p).cfg = s.cfg := rfl
@[simp] theorem State.begin_powerOnIndex (s : State) (p : List Instant) :
    (s.begin p).powerOnIndex = s.powerOnIndex := rfl
@[simp] theorem State.begin_pending (s : State) (p : List Instant) : (s.begin p).pending = p := rfl
@[simp] theorem State.begin_response (s : State) (p : List Instant) : (s.begin p).response = none := rfl
@[simp] theorem State.begin_history (s : State) (p : List Instant) : (s.begin p).history = [] := rfl

/-- Whatever `fetch` takes, the step starts from the same block with the outputs of the last step cleared. -/
theorem fetch_begin (s : State) : ∃ p, (fetch s).2 = s.begin p := by
  unfold fetch
  split
  · exact ⟨_, rfl⟩
  · split_ifs
    · exact ⟨_, rfl⟩
    · split
      · exact ⟨_, rfl⟩
      · split <;> exact ⟨_, rfl⟩

/-- What can be taken: nothing, the reset input, a host request or a sample; the reset input only where `resetNext` would
show it. A format T word never is. -/
theorem fetch_word (s : State) {w : FormatWord} (h : (fetch s).1 = some w) :
    (w = .X 1 ∧ ∃ i rest, s.pending = i :: rest ∧ i.rst = true) ∨
      ((∃ hr : HostRequest, w = hr.word) ∨ ∃ v, w = .S v) ∧ ∃ i rest, s.pending = i :: rest ∧ i.rst = false := by
  unfold fetch at h
  split at h
  · cases h
  · rename_i i rest hp
    cases hr : i.rst
    · refine .inr ⟨?_, i, rest, hp, hr⟩
      simp only [hr, Bool.false_eq_true, if_false] at h
      split at h
      · exact .inl ⟨_, (Option.some.inj h).symm⟩
      · split at h
        · exact .inr ⟨_, (Option.some.inj h).symm⟩
        · cases h
    · refine .inl ⟨?_, i, rest, hp, hr⟩
      simp only [hr, if_true] at h
      exact (Option.some.inj h).symm

/-- What a step that answers did: it waited, it ran the instruction of the word it took, or it rejected the word. -/
theorem step_cases {s t : State} (h : step s = .next t) :
    s.cfg.valid = true ∧ ∃ p,
      ((fetch s).1 = none ∧ t = s.begin p) ∨
      (∃ w i, (fetch s).1 = some w ∧ decode s.cfg.rowAdvance w = .ok i ∧ exec i (s.begin p) = .next t) ∨
      (∃ w e, (fetch s).1 = some w ∧ decode s.cfg.rowAdvance w = .error e ∧ t = rejectWord e (s.begin p)) := by
  obtain ⟨p, hp⟩ := fetch_begin s
  unfold step at h
  cases hv : s.cfg.valid
  · simp [hv] at h
  · refine ⟨rfl, p, ?_⟩
    simp only [hv, Bool.not_true, Bool.false_eq_true, if_false] at h
    generalize hf : fetch s = f at h hp
    obtain ⟨w, u⟩ := f
    obtain rfl : u = s.begin p := hp
    cases w with
    | none => exact .inl ⟨rfl, (Host.Outcome.next.inj h).symm⟩
    | some w =>
      simp only [State.begin_cfg] at h
      cases hd : decode s.cfg.rowAdvance w with
      | ok i => exact .inr (.inl ⟨w, i, rfl, hd, by simpa [hd] using h⟩)
      | error e => exact .inr (.inr ⟨w, e, rfl, hd, by simpa [hd] using h.symm⟩)

end Sys2Proof.Machine
end

