-- ==== Sys2Proof/Tests/Slice0.lean ====
section
/-! SUPPORT. Tests on fixed values, each expected result from the spec's tables (spec/95_test_vectors.md, by the vector's
number) or by hand from a rule, and a witness for the hypotheses of each statement. -/

open Sys2Proof Sys2Proof.Machine

namespace Sys2Proof.Tests

/-! ## Small states -/

/-- An instance of `rows` by `cols`, primed, with PCLK and VSYNC enabled and every other register 0. -/
def small (m : RowAdvance) (rows cols : Nat) : State :=
  { State.reset with
    cfg := { rows := rows, cols := cols, rowAdvance := m }
    blk := { State.reset.blk with primed := true, ctrlPclkEn := true, ctrlVsyncEn := true } }

/-- A change of the block. -/
def on (s : State) (f : Block → Block) : State := s.setBlk (f s.blk)

/-- The cursor placed by hand. -/
def at' (s : State) (r c : Half) : State := on s fun b => { b with row := r, col := c }

/-- What is seen of a next state; nothing of a stop. -/
def see {α : Type} (r : Result) (f : State → α) : Option α :=
  match r with
  | .next s => some (f s)
  | .fault _ => none
  | .refused _ => none

/-- The cursor. -/
def cursor (s : State) : Half × Half := (s.blk.row, s.blk.col)

/-- The response. -/
def resp (s : State) : Option Response := s.response

/-! ## Well-formedness: an ill-formed term for each check, refused -/

theorem test_wf_hrefFall_mode : Instr.wf .count .hrefFall = false := by decide
theorem test_wf_count_mode : Instr.wf .href (.pclkRiseCount 0x17E) = false := by decide
theorem test_wf_count_low : Instr.wf .count (.pclkRiseCount 0x07E) = false := by decide
theorem test_wf_href_mode : Instr.wf .count (.pclkRiseHref 0x355) = false := by decide
theorem test_wf_href_pclk : Instr.wf .href (.pclkRiseHref 0x255) = false := by decide
theorem test_wf_href_href : Instr.wf .href (.pclkRiseHref 0x155) = false := by decide
theorem test_wf_blank_mode : Instr.wf .count (.pclkRiseBlank 0x1FF) = false := by decide
theorem test_wf_blank_pclk : Instr.wf .href (.pclkRiseBlank 0x0FF) = false := by decide
theorem test_wf_blank_href : Instr.wf .href (.pclkRiseBlank 0x3FF) = false := by decide

/-- Well-formed terms, one for each check. -/
theorem test_wf_accepts :
    Instr.wf .href .hrefFall = true ∧ Instr.wf .count (.pclkRiseCount 0x17E) = true ∧
    Instr.wf .href (.pclkRiseHref 0x355) = true ∧ Instr.wf .href (.pclkRiseBlank 0x1FF) = true ∧
    Instr.wf .count (.wrCtrl 0xFFFFFFFF) = true ∧ Instr.wf .href (.pixelRead 1 0xFFFF 0xFFFF) = true := by decide

/-! ## Decoding: words written out bit by bit -/

/-- R53: V, H, P, then D7 to D0. -/
theorem test_decode_sample : decode .count (.S 0b0_0_1_10100101#11) = .ok (.sample 0x1A5) := by decide
/-- R54, R59: prev is all zeros, cur has V alone. -/
theorem test_decode_vsyncRise : decode .href (.T 0b0_0_0_00000000_1_0_0_00000000#22) = .ok .vsyncRise := by decide
/-- prev has H alone, cur is all zeros. -/
theorem test_decode_hrefFall : decode .href (.T 0b0_1_0_00000000_0_0_0_00000000#22) = .ok .hrefFall := by decide
/-- cur has P and the byte 0x7E. -/
theorem test_decode_pclkRiseCount :
    decode .count (.T 0b0_0_0_00000000_0_0_1_01111110#22) = .ok (.pclkRiseCount 0x17E) := by decide
/-- cur has H, P and the byte 0x55. -/
theorem test_decode_pclkRiseHref :
    decode .href (.T 0b0_0_0_00000000_0_1_1_01010101#22) = .ok (.pclkRiseHref 0x355) := by decide
/-- cur has P without H. -/
theorem test_decode_pclkRiseBlank :
    decode .href (.T 0b0_0_0_00000000_0_0_1_11111111#22) = .ok (.pclkRiseBlank 0x1FF) := by decide
/-- R61, F7: an HREF fall in COUNT mode raises no event. -/
theorem test_decode_hrefFall_count : decode .count (.T 0x100000) = .error (.noEvent 0x100000) := by decide
/-- R59: the word with V, P rising and H falling raises three events in HREF mode, in the order of R68. -/
theorem test_decode_three_events :
    decodeEvents .href (formatT 0x200 0x5C3) = [.vsyncRise, .hrefFall, .pclkRiseBlank 0x5C3] := by decide

/-- R55, R41: W, SZ = 2, RSV = 0, OFFSET. The reads. -/
theorem test_decode_reads :
    decode .count (.H 0b0_10_00000_00000000#16 0) = .ok .rdCtrl ∧
    decode .count (.H 0b0_10_00000_00000100#16 0) = .ok .rdStatus ∧
    decode .count (.H 0b0_10_00000_00001000#16 0) = .ok .rdCursor ∧
    decode .count (.H 0b0_10_00000_00001100#16 0) = .ok .rdOverrunCount ∧
    decode .count (.H 0b0_10_00000_00010000#16 0) = .ok .rdHandoffMissCount ∧
    decode .count (.H 0b0_10_00000_00010100#16 0) = .ok .rdFrameCount ∧
    decode .count (.H 0b0_10_00000_00011000#16 0) = .ok .rdGeometry ∧
    decode .count (.H 0b0_10_00000_00011100#16 0) = .ok .rdConfig ∧
    decode .count (.H 0b0_10_00000_00100000#16 0) = .ok .rdPins := by decide

/-- The writes. -/
theorem test_decode_writes :
    decode .count (.H 0b1_10_00000_00000000#16 7) = .ok (.wrCtrl 7) ∧
    decode .count (.H 0b1_10_00000_00000100#16 7) = .ok (.wrStatus 7) ∧
    decode .count (.H 0b1_10_00000_00001000#16 7) = .ok (.wrCursor 7) ∧
    decode .count (.H 0b1_10_00000_00001100#16 7) = .ok (.wrOverrunCount 7) ∧
    decode .count (.H 0b1_10_00000_00010000#16 7) = .ok (.wrHandoffMissCount 7) ∧
    decode .count (.H 0b1_10_00000_00010100#16 7) = .ok (.wrFrameCount 7) ∧
    decode .count (.H 0b1_10_00000_00011000#16 7) = .ok (.wrGeometry 7) ∧
    decode .count (.H 0b1_10_00000_00011100#16 7) = .ok (.wrConfig 7) ∧
    decode .count (.H 0b1_10_00000_00100000#16 7) = .ok (.wrPins 7) := by decide

/-- G22 to G29: the selectors that are refused. -/
theorem test_decode_bad_selectors :
    decode .count (.H 0x4002 0) = .error (.hostBusError 0x4002) ∧
    decode .count (.H 0x2004 0) = .error (.hostBusError 0x2004) ∧
    decode .count (.H 0x0004 0) = .error (.hostBusError 0x0004) ∧
    decode .count (.H 0x6004 0) = .error (.hostBusError 0x6004) ∧
    decode .count (.H 0x4104 0) = .error (.hostBusError 0x4104) ∧
    decode .count (.H 0x4024 0) = .error (.hostBusError 0x4024) ∧
    decode .count (.H 0x40FC 0) = .error (.hostBusError 0x40FC) ∧
    decode .count (.H 0xC024 0) = .error (.hostBusError 0xC024) := by decide

/-- R56: B, ROW, COL. -/
theorem test_decode_pixelRead :
    decode .count (.P 0b1_0000000000000010_0000000000000011#33) = .ok (.pixelRead 1 2 3) := by decide
/-- R57. -/
theorem test_decode_reset : decode .count (.X 1) = .ok .reset ∧ decode .count (.X 0) = .error .resetNotAsserted := by
  decide

/-- The encoder's words for the same instructions. -/
theorem test_encode :
    encode (.sample 0x1A5) = .S 0x1A5 ∧ encode .vsyncRise = .T 0x000400 ∧
    encode (.pclkRiseCount 0x17E) = .T (formatT 0x07E 0x17E) ∧ encode (.wrPins 9) = .H 0xC020 9 ∧
    encode (.pixelRead 1 2 0) = .P 0x100020000 := by decide

/-! ## The opcode table's words -/

theorem test_table_words :
    decodeTableWord 16 0x000 = some (.sample 0) ∧ decodeTableWord 24 0x000400 = some .vsyncRise ∧
    decodeTableWord 24 0x100000 = some .hrefFall ∧ decodeTableWord 24 0x000100 = some (.pclkRiseCount 0x100) ∧
    decodeTableWord 24 0x000300 = some (.pclkRiseHref 0x300) ∧ decodeTableWord 16 0x4020 = some .rdPins ∧
    decodeTableWord 16 0xC014 = some (.wrFrameCount 0) ∧ decodeTableWord 8 1 = some .reset ∧
    decodeTableWord 8 0 = some (.pixelRead 0 0 0) := by decide

theorem test_withFetchWord_host :
    see (step (State.reset.withFetchWord 16 0x4018)) resp = some (some (.reg .ok 0x01E00280)) := by decide
theorem test_withFetchWord_event :
    see (step (State.reset.withFetchWord 24 0x100000)) State.history =
      some [.event .hrefFall, .condition (.rowLengthMismatch 0 0)] := by decide
theorem test_withFetchWord_blank :
    see (step (State.reset.withFetchWord 24 0x100100)) State.history =
      some [.event .hrefFall, .condition (.rowLengthMismatch 0 0), .event .pclkRiseBlank] := by decide

/-! ## The sampler, L2.1 -/

/-- S1. -/
theorem test_sample_primes :
    see (exec (.sample 0x500) (on (small .count 2 3) fun b => { b with primed := false }))
      (fun s => (s.blk.prev, s.blk.primed, s.blk.frameCount)) = some (0x500, true, 0) := by decide
/-- S4: the pixel goes to the new frame. -/
theorem test_sample_coinciding :
    see (exec (.sample 0x5C3) (small .count 2 3))
      (fun s => (bufRead s 1 0 0, cursor s, s.blk.frameCount, s.history)) =
    some (some 0xC3, (0, 1), 1, [.event .vsyncRise, .event .pclkRiseCount]) := by decide
/-- R68 in HREF mode, V, H and P rising: the column does not wrap at one column. -/
theorem test_sample_coinciding_href :
    see (exec (.sample 0x7C3) (small .href 2 1)) (fun s => (bufRead s 1 0 0, cursor s, s.history)) =
      some (some 0xC3, (0, 1), [.event .vsyncRise, .event .pclkRiseHref]) := by decide
/-- S5: both disabled. -/
theorem test_sample_disabled :
    exec (.sample 0x5FF) (on (small .count 2 3) fun b => { b with ctrlPclkEn := false, ctrlVsyncEn := false }) =
      .next (on (small .count 2 3) fun b => { b with ctrlPclkEn := false, ctrlVsyncEn := false, prev := 0x5FF }) := rfl
/-- S11: HREF falls and PCLK rises. -/
theorem test_sample_hrefFall_blank :
    see (exec (.sample 0x111) (on (small .href 2 2) fun b => { b with prev := 0x200, col := 1 }))
      (fun s => (s.blk.rowLenErr, cursor s, s.blk.fb)) = some (true, (1, 0), []) := by decide
/-- S12: HREF and PCLK rise. -/
theorem test_sample_href_pixel :
    see (exec (.sample 0x344) (small .href 2 2)) (fun s => (bufRead s 0 0 0, cursor s)) =
      some (some 0x44, (0, 1)) := by decide
/-- S8: D alone changes. -/
theorem test_sample_data_only :
    see (exec (.sample 0x155) (on (small .count 2 3) fun b => { b with prev := 0x1AA }))
      (fun s => (s.blk.prev, s.history)) = some (0x155, []) := by decide

/-! ## The pixel events, L2.2 and L2.3 -/

/-- C2. -/
theorem test_count_wraps :
    see (exec (.pclkRiseCount 0x134) (at' (small .count 2 3) 0 2)) (fun s => (bufRead s 0 0 2, cursor s)) =
      some (some 0x34, (1, 0)) := by decide
/-- C6: the clamped path at the counter's top. -/
theorem test_count_clamped :
    see (exec (.pclkRiseCount 0x100) (on (at' (small .count 2 3) 2 0) fun b => { b with overrunCount := 0xFFFFFFFF }))
      (fun s => (s.blk.overrunCount, cursor s, s.blk.fb)) = some (0xFFFFFFFF, (2, 0), []) := by decide
/-- C9: no 16-bit overflow. -/
theorem test_count_largest :
    see (exec (.pclkRiseCount 0x101) (at' (small .count 65535 65535) 65534 65534)) cursor = some (65535, 0) := by decide
/-- H2: the column may become COLS. -/
theorem test_href_last :
    see (exec (.pclkRiseHref 0x3A2) (at' (small .href 2 2) 0 1)) (fun s => (bufRead s 0 0 1, cursor s)) =
      some (some 0xA2, (0, 2)) := by decide
/-- H3: a row too long. -/
theorem test_href_full :
    see (exec (.pclkRiseHref 0x355) (at' (small .href 2 2) 0 2))
      (fun s => (s.blk.fb, cursor s, s.blk.overrunCount, s.blk.rowLenErr, s.history)) =
    some ([], (0, 2), 1, true,
      [.event .pclkRiseHref, .condition (.captureOverrun 0 2), .condition (.rowLengthMismatch 0 2)]) := by decide
/-- H5. -/
theorem test_blank : see (exec (.pclkRiseBlank 0x1FF) (at' (small .href 2 2) 0 1)) State.blk =
    some (at' (small .href 2 2) 0 1).blk := by decide
/-- R33, log entry 7: a column that is no column. -/
theorem test_count_outside :
    (match exec (.pclkRiseCount 0x100) (at' (small .count 2 3) 1 3) with
      | .fault e => some e
      | _ => none) = some (.cellOutOfRange 0 1 3) := by decide

/-! ## The sync events, L2.4 and L2.5 -/

/-- V1. -/
theorem test_vsync_swaps :
    see (exec .vsyncRise (on (at' (small .count 2 3) 1 2) fun b => { b with frameCount := 5 }))
      (fun s => (s.blk.active, s.blk.ready, cursor s, s.blk.frameCount, s.blk.handoffMissCount)) =
    some (1, true, (0, 0), 6, 0) := by decide
/-- V2, V3, V4: the miss at the counter's top, and the frame count's wrap. -/
theorem test_vsync_miss :
    see (exec .vsyncRise (on (small .count 2 3) fun b =>
        { b with active := 1, ready := true, handoffMissCount := 0xFFFFFFFF, frameCount := 0xFFFFFFFF }))
      (fun s => (s.blk.active, s.blk.handoffMissCount, s.blk.frameCount, s.history)) =
    some (0, 0xFFFFFFFF, 0, [.event .vsyncRise, .condition (.handoffMiss 0xFFFFFFFF)]) := by decide
/-- F2. -/
theorem test_hrefFall_short :
    see (exec .hrefFall (at' (small .href 2 2) 0 1)) (fun s => (cursor s, s.blk.rowLenErr)) =
      some ((1, 0), true) := by decide
/-- F4, F6: a full row keeps the flag and may clamp. -/
theorem test_hrefFall_full :
    see (exec .hrefFall (on (at' (small .href 2 2) 1 2) fun b => { b with rowLenErr := true }))
      (fun s => (cursor s, s.blk.rowLenErr, s.clamped)) = some ((2, 0), true, true) := by decide

/-! ## The register port, L2.6 -/

/-- G1. -/
theorem test_wrCtrl :
    see (exec (.wrCtrl 0xFFFFFFFF) State.reset)
      (fun s => (s.blk.ctrlPclkEn, s.blk.ctrlVsyncEn, s.blk.ctrlIrqEn, resp s)) =
    some (true, true, true, some (.reg .ok 0)) := by decide
/-- G30's value read back: CTRL 0x3. -/
theorem test_rdCtrl : see (exec .rdCtrl (small .count 2 3)) resp = some (some (.reg .ok 3)) := by decide
/-- G3. -/
theorem test_rdStatus :
    see (exec .rdStatus (on (at' (small .count 2 3) 2 0) fun b => { b with active := 1, ready := true }))
      (fun s => (resp s, s.blk.ready)) = some (some (.reg .ok 0x17), true) := by decide
/-- G4 and G5. -/
theorem test_wrStatus_bits :
    see (exec (.wrStatus 2) (on (small .href 2 2) fun b => { b with ready := true, rowLenErr := true }))
      (fun s => (s.blk.ready, s.blk.rowLenErr)) = some (false, true) ∧
    see (exec (.wrStatus 8) (on (small .href 2 2) fun b => { b with ready := true, rowLenErr := true }))
      (fun s => (s.blk.ready, s.blk.rowLenErr)) = some (true, false) := by decide
/-- G6: the read-only bits. -/
theorem test_wrStatus_readonly :
    see (exec (.wrStatus 0x15) (on (small .href 2 2) fun b => { b with ready := true, active := 1 })) State.blk =
      some (on (small .href 2 2) fun b => { b with ready := true, active := 1 }).blk := by decide
/-- G8. -/
theorem test_rdCursor :
    see (exec .rdCursor (at' (small .count 2 3) 1 2)) resp = some (some (.reg .ok 0x00010002)) := by decide
/-- G9. -/
theorem test_wrCursor :
    see (exec (.wrCursor 0x00050005) (at' (small .count 2 3) 1 2)) (fun s => (cursor s, resp s)) =
      some ((1, 2), some (.reg .ok 0)) := by decide
/-- G10. -/
theorem test_rdOverrunCount :
    see (exec .rdOverrunCount (on (small .count 2 3) fun b => { b with overrunCount := 3 })) resp =
      some (some (.reg .ok 3)) := by decide
/-- G11. -/
theorem test_wrOverrunCount :
    see (exec (.wrOverrunCount 0x1234) (on (small .count 2 3) fun b => { b with overrunCount := 3 }))
      (fun s => s.blk.overrunCount) = some 0 := by decide
/-- G13, the read. -/
theorem test_rdHandoffMissCount :
    see (exec .rdHandoffMissCount (on (small .count 2 3) fun b => { b with handoffMissCount := 1 })) resp =
      some (some (.reg .ok 1)) := by decide
/-- G13, the write. -/
theorem test_wrHandoffMissCount :
    see (exec (.wrHandoffMissCount 0) (on (small .count 2 3) fun b => { b with handoffMissCount := 1 }))
      (fun s => s.blk.handoffMissCount) = some 0 := by decide
/-- G14, the read. -/
theorem test_rdFrameCount :
    see (exec .rdFrameCount (on (small .count 2 3) fun b => { b with frameCount := 5 })) resp =
      some (some (.reg .ok 5)) := by decide
/-- G14, the write. -/
theorem test_wrFrameCount :
    see (exec (.wrFrameCount 0) (on (small .count 2 3) fun b => { b with frameCount := 5 }))
      (fun s => s.blk.frameCount) = some 5 := by decide
/-- G15. -/
theorem test_rdGeometry : see (exec .rdGeometry (small .count 480 640)) resp = some (some (.reg .ok 0x01E00280)) := by
  decide
/-- G16. -/
theorem test_wrGeometry : see (exec (.wrGeometry 0) (small .count 480 640)) State.cfg =
    some { rows := 480, cols := 640, rowAdvance := .count } := by decide
/-- G17. -/
theorem test_rdConfig :
    see (exec .rdConfig (small .count 2 3)) resp = some (some (.reg .ok 0)) ∧
    see (exec .rdConfig (small .href 2 3)) resp = some (some (.reg .ok 1)) := by decide
/-- G18. -/
theorem test_wrConfig : see (exec (.wrConfig 1) (small .count 2 3)) (fun s => s.cfg.rowAdvance) = some .count := by decide
/-- G19. -/
theorem test_rdPins :
    see (exec .rdPins (on (small .count 2 3) fun b => { b with prev := 0x1FF })) resp = some (some (.reg .ok 0x1FF)) := by
  decide
/-- G21. -/
theorem test_wrPins :
    see (exec (.wrPins 0) (on (small .count 2 3) fun b => { b with prev := 0x100 })) (fun s => s.blk.prev) =
      some 0x100 := by decide

/-! ## The pixel port, L2.7 -/

/-- ROWS = 2, COLS = 2, active = 1, FB[0] = [[0x10, 0xFF], [0x20, unknown]]. -/
def pixState : State :=
  on (small .count 2 2) fun b => { b with active := 1, fb := [(0x00000, 0x10), (0x00001, 0xFF), (0x10000, 0x20)] }

/-- X1, X2, X4. -/
theorem test_pixelRead_ok :
    see (exec (.pixelRead 0 0 1) pixState) resp = some (some (.pix .ok 0xFF)) ∧
    see (exec (.pixelRead 0 1 0) pixState) resp = some (some (.pix .ok 0x20)) ∧
    see (exec (.pixelRead 1 0 0) pixState) resp = some (some (.pix .errActive 0)) := by decide
/-- X5, X6, X7, X8. -/
theorem test_pixelRead_range :
    see (exec (.pixelRead 0 2 0) pixState) resp = some (some (.pix .errRange 0)) ∧
    see (exec (.pixelRead 0 0 2) pixState) resp = some (some (.pix .errRange 0)) ∧
    see (exec (.pixelRead 1 2 0) pixState) resp = some (some (.pix .errRange 0)) ∧
    see (exec (.pixelRead 0 0xFFFF 0xFFFF) pixState) resp = some (some (.pix .errRange 0)) := by decide

/-! ## Reset, L2.8, and steps -/

/-- Z1. -/
theorem test_reset :
    see (exec .reset (on (small .count 2 2) fun b => { b with row := 1, ready := true, fb := [(0x100000000, 0x42)] }))
      (fun s => (s.blk, s.frameIrq)) = some (Block.afterReset [(0x100000000, 0x42)], false) := by decide

/-- A 2 by 3 instance with one instant presented. -/
def presented (i : Instant) : State := { small .count 2 3 with pending := [i] }

/-- R120.6: reset beside a request and a sample. -/
theorem test_step_reset_wins :
    see (step (presented { rst := true, host := some (.reg 0x4000 0), sample := some 0x100 }))
      (fun s => (s.blk, s.pending, s.response)) = some (Block.afterReset [], [], none) := by decide
/-- R120.5: a host request, and the sample left for the next step. -/
theorem test_step_host_first :
    see (step (presented { rst := false, host := some (.reg 0xC000 0), sample := some 0x100 }))
      (fun s => (s.blk.ctrlPclkEn, s.pending)) =
    some (false, [{ rst := false, host := none, sample := some 0x100 }]) := by decide
/-- G22: a bad selector. -/
theorem test_step_hostBusError :
    see (step (presented { rst := false, host := some (.reg 0x4002 0), sample := none }))
      (fun s => (s.response, s.history)) =
    some (some (.reg .err 0), [.condition (.hostBusError 0x4002)]) := by decide
/-- R133: nothing presented. -/
theorem test_step_idle : step State.reset = .next State.reset := rfl

/-! ## The script, R64 and R65 -/

/-- P3's steps 1 to 5 and P1's steps 13 and 5. -/
theorem test_script_words :
    assembleScript [.reset, .idle, .enableIrq, .vsync, .ack, .pix 1 1 1, .pclk 0x11] =
      some [.X 1, .S 0x000, .H 0xC000 7, .S 0x400, .S 0x000, .H 0xC004 2, .P 0x100010001, .S 0x011, .S 0x111] := by
  decide
/-- An operand that does not fit. -/
theorem test_script_rejects : assembleScript [.sample 0x800] = none := by decide
/-- R53's `enc`, added up by hand: 0x400 + 0x100 + 0xC3 and 0x200 + 0x5A. -/
theorem test_encSample : encSample true false true 0xC3 = 0x5C3 ∧ encSample false true false 0x5A = 0x25A := by decide
/-- One line of the text form, with a comment. -/
theorem test_script_text :
    parseScript "WR CTRL, 0x3 ; enable\n\nPIX 1, 16, 0xA" = some [.wr .ctrl 3, .pix 1 16 10] := by decide

/-! ## Building an instance, R115 -/

/-- Both ends of the legal ranges, and one outside each. -/
theorem test_powerOn_bounds :
    see (powerOn 1 65535 0 0) State.cfg = some { rows := 1, cols := 65535, rowAdvance := .count } ∧
    see (powerOn 65535 1 1 0) State.cfg = some { rows := 65535, cols := 1, rowAdvance := .href } ∧
    see (powerOn 0 1 0 0) State.cfg = none ∧ see (powerOn 65536 1 0 0) State.cfg = none ∧
    see (powerOn 1 0 0 0) State.cfg = none ∧ see (powerOn 1 65536 0 0) State.cfg = none ∧
    see (powerOn 1 1 2 0) State.cfg = none := by decide

/-! ## Witnesses: a concrete case that meets all the hypotheses of a statement -/

/-- Of PowerOnState and InvHoldsAtPowerOn. -/
theorem test_witness_powerOn : ∃ t, powerOn 2 3 1 4 = .next t := ⟨_, rfl⟩
/-- Of RegisterPortMap: a selector in no row, just past the last offset. -/
theorem test_witness_badSelector :
    (0x4024 : BitVec 16) ∉ ([0x4000, 0xC000, 0x4004, 0xC004, 0x4008, 0xC008, 0x400C, 0xC00C, 0x4010, 0xC010, 0x4014,
      0xC014, 0x4018, 0xC018, 0x401C, 0xC01C, 0x4020, 0xC020] : List (BitVec 16)) := by decide
/-- Of ResetStep and StepRunsDecodedInput: legal parameters, and an instant with each thing in it. -/
theorem test_witness_instants :
    (small .count 2 3).cfg.valid = true ∧
    (presented { rst := true, host := none, sample := none }).pending =
      [{ rst := true, host := none, sample := none }] ∧
    decode .count (.H 0x4020 0) = .ok .rdPins ∧
    (presented { rst := false, host := some (.pix 0x100020003), sample := none }).pending =
      [{ rst := false, host := some (.pix ((1 : BitVec 1) ++ (2 : Half) ++ (3 : Half))), sample := none }] := by decide
/-- Of ConfigInvalidIsRefused, the step's clause. -/
theorem test_witness_illegalConfig : (small .count 0 65536).cfg.valid = false := by decide
/-- Of UneventfulSampleOnlyUpdatesPrev: both enabled and levels high in both samples; an HREF instance whose HREF stays
high. -/
theorem test_witness_uneventful :
    (small .href 2 3).blk.primed = true ∧ (small .href 2 3).blk.ctrlVsyncEn = true ∧
    (small .href 2 3).blk.ctrlPclkEn = true ∧ (small .href 2 3).cfg.rowAdvance = .href ∧
    (small .href 2 3).blk.prev.getLsbD 10 = false ∧ (0x2FF : Sample).getLsbD 10 = false ∧
    (small .href 2 3).blk.prev.getLsbD 8 = false ∧ (0x2FF : Sample).getLsbD 8 = false ∧
    (0x2FF : Sample).getLsbD 9 = true := by decide
/-- Of CoincidingPixelGoesToNewFrame: the state of S4, the one-column instance, and an HREF instance whose sample has V, H
and P. -/
theorem test_witness_coincidingPixel :
    (small .href 2 3).cfg.rowAdvance = .href ∧ (0x7C3 : Sample).getLsbD 9 = true ∧
    (0x7C3 : Sample).getLsbD 10 = true ∧ (0x7C3 : Sample).getLsbD 8 = true ∧
    (small .count 2 1).cfg.valid = true ∧ (small .count 2 3).cfg.rowAdvance = .count ∧
    (small .count 2 3).blk.primed = true ∧ (small .count 2 3).blk.ctrlVsyncEn = true ∧
    (small .count 2 3).blk.ctrlPclkEn = true ∧ (small .count 2 3).blk.prev = 0 ∧
    (0x5C3 : Sample).getLsbD 10 = true ∧ (0x5C3 : Sample).getLsbD 8 = true := by decide
/-- S11's state, which CoincidingHrefFallEndsRowFirst is about. -/
def hrefFalls : State := on (small .href 2 2) fun b => { b with prev := 0x200, col := 1 }
/-- Of CoincidingHrefFallEndsRowFirst and, with S12, CoincidingHrefRiseWritesPixel. -/
theorem test_witness_coincidingHref :
    hrefFalls.cfg.rowAdvance = .href ∧ hrefFalls.blk.primed = true ∧ hrefFalls.blk.ctrlPclkEn = true ∧
    ¬ (hrefFalls.blk.prev.getLsbD 10 = false ∧ (0x111 : Sample).getLsbD 10 = true) ∧
    hrefFalls.blk.prev.getLsbD 9 = true ∧ (0x111 : Sample).getLsbD 9 = false ∧
    hrefFalls.blk.prev.getLsbD 8 = false ∧ (0x111 : Sample).getLsbD 8 = true ∧
    hrefFalls.blk.row.toNat < hrefFalls.cfg.rows ∧ hrefFalls.blk.col.toNat < hrefFalls.cfg.cols ∧
    (small .href 2 2).blk.prev.getLsbD 9 = false ∧ (0x344 : Sample).getLsbD 9 = true ∧
    (0x344 : Sample).getLsbD 8 = true ∧ (0x344 : Sample).getLsbD 10 = false := by decide
/-- Of the clauses of the pixel events and of HREF_FALL: clamped, row full, last column. -/
theorem test_witness_cursors :
    (small .count 2 3).cfg.rows ≤ (at' (small .count 2 3) 2 0).blk.row.toNat ∧
    (at' (small .count 2 3) 1 3).blk.row.toNat < (small .count 2 3).cfg.rows ∧
    (small .count 2 3).cfg.cols ≤ (at' (small .count 2 3) 1 3).blk.col.toNat ∧
    (at' (small .count 2 3) 1 2).blk.col.toNat < (small .count 2 3).cfg.cols ∧
    (at' (small .count 2 3) 1 2).blk.col.toNat + 1 = (small .count 2 3).cfg.cols := by decide
/-- Of PixelEventFrame, CountersSaturateOrWrap, OnlyNamedInstrsWrite: an event that answers. -/
theorem test_witness_eventAnswers :
    (∃ t, exec (.pclkRiseCount 0x100) (at' (small .count 2 3) 1 2) = .next t) ∧
    (∃ t, exec (.pclkRiseHref 0x300) (at' (small .href 2 3) 1 3) = .next t) ∧
    (∃ t, exec .vsyncRise (small .count 2 3) = .next t) := ⟨⟨_, rfl⟩, ⟨_, rfl⟩, ⟨_, rfl⟩⟩
/-- Of NoSwapWithVsyncDisabled: a clamped instance with VSYNC disabled, and samples that raise the edges. -/
theorem test_witness_vsyncDisabled :
    ∃ t, execAll ([0x400, 0x100].map Instr.sample) (on (at' (small .count 2 3) 2 0) fun b =>
      { b with ctrlVsyncEn := false }) = .next t := ⟨_, rfl⟩
/-- Of CountFrameFillsBuffer and HrefFrameFillsBuffer: a frame of a 2 by 3 instance. -/
theorem test_witness_frames :
    ([0x1A0, 0x1A1, 0x1A2, 0x1A3, 0x1A4, 0x1A5] : List Sample).length =
      (small .count 2 3).cfg.rows * (small .count 2 3).cfg.cols ∧
    ([[0x3A0, 0x3A1, 0x3A2], [0x3A3, 0x3A4, 0x3A5]] : List (List Sample)).length = (small .href 2 3).cfg.rows ∧
    (∀ l ∈ ([[0x3A0, 0x3A1, 0x3A2], [0x3A3, 0x3A4, 0x3A5]] : List (List Sample)),
      l.length = (small .href 2 3).cfg.cols) := by decide
/-- Of BadSelectorIsHostBusError: each field at a value that fails, and the largest legal offset. -/
theorem test_witness_selectorChecks :
    (0x6000 : BitVec 16).extractLsb' 13 2 ≠ 2 ∧ (0x4100 : BitVec 16).extractLsb' 8 5 ≠ 0 ∧
    (0x4001 : BitVec 16).extractLsb' 0 2 ≠ 0 ∧ 0x20 < ((0x4024 : BitVec 16).extractLsb' 0 8).toNat ∧
    ¬ ((0xC020 : BitVec 16).extractLsb' 13 2 ≠ 2 ∨ (0xC020 : BitVec 16).extractLsb' 8 5 ≠ 0 ∨
      (0xC020 : BitVec 16).extractLsb' 0 2 ≠ 0 ∨ 0x20 < ((0xC020 : BitVec 16).extractLsb' 0 8).toNat) := by decide
/-- Of StatusWriteClears: a STATUS write and a sample in one instant. -/
theorem test_witness_statusBesideSample :
    (presented { rst := false, host := some (.reg 0xC004 2), sample := some 0x400 }).cfg.valid = true ∧
    (presented { rst := false, host := some (.reg 0xC004 2), sample := some 0x400 }).pending =
      [{ rst := false, host := some (.reg 0xC004 2), sample := some 0x400 }] := by decide
/-- Of PixelReadResult: the last row and column, one past each, the active buffer and the other one. -/
theorem test_witness_pixelRead :
    pixState.cfg.rows ≤ (2 : Half).toNat ∧ pixState.cfg.cols ≤ (2 : Half).toNat ∧
    (1 : Half).toNat < pixState.cfg.rows ∧ (1 : Half).toNat < pixState.cfg.cols ∧
    (1 : BitVec 1) = pixState.blk.active ∧ (0 : BitVec 1) ≠ pixState.blk.active ∧
    bufRead pixState 0 0 1 = some 0xFF := by decide
/-- Of PixelReadIgnoresActiveBuffer: buffers that differ in a cell of the active buffer alone. -/
theorem test_witness_otherActiveBuffer :
    (∀ r c : Half, (pixState.blk.fb.write (cellKey 1 0 0) 0x77).read (cellKey (1 - pixState.blk.active) r c) =
      pixState.blk.fb.read (cellKey (1 - pixState.blk.active) r c)) ∧
    ∃ t, exec (.pixelRead 0 0 1) pixState = .next t :=
  ⟨fun r c => read_write_otherCell (b := 1) (b' := 0) (r := 0) (r' := r) (c := 0) (c' := c) pixState.blk.fb 0x77
    fun h => absurd h.1 (by decide), _, rfl⟩
/-- Of HostNeverWritesBuffers and ReadsAreIdempotent. -/
theorem test_witness_hostAnswers :
    writesBuffers (.wrCtrl 7) = false ∧ (∃ t, exec (.wrCtrl 7) pixState = .next t) ∧
    (∃ t, exec .rdStatus pixState = .next t) ∧ ∃ t, exec (.pixelRead 0 1 1) pixState = .next t :=
  ⟨rfl, ⟨_, rfl⟩, ⟨_, rfl⟩, ⟨_, rfl⟩⟩
/-- Of BufferWriteChangesOneCell: the last cell, and another one. -/
theorem test_witness_bufWrite :
    (∃ t, bufWrite pixState 1 1 1 0x99 = .next t) ∧
    ((0, 1, 1) : BitVec 1 × Half × Half) ≠ (1, 1, 1) := ⟨⟨_, rfl⟩, by decide⟩
/-- Of MemoryIsCanonical: a canonical memory, and one that is not. -/
theorem test_witness_memory :
    Memory.wf [(1, 0x10), (2, 0)] = true ∧ Memory.wf [(2, 0), (1, 0x10)] = false ∧ Memory.wf [(1, 0), (1, 0)] = false := by
  decide
/-- Of LinearOffsetIsInjective: the last cell of a 2 by 3 buffer is at offset 5. -/
theorem test_witness_linearOffset :
    linearOffset (small .count 2 3).cfg 1 2 = 5 ∧ 1 < (small .count 2 3).cfg.rows ∧ 2 < (small .count 2 3).cfg.cols := by
  decide
/-- Of FrameIrqLevel and AcknowledgeRaceIsCounted: a ready frame with the interrupt enabled. -/
def irqState : State := on (small .count 2 3) fun b => { b with ready := true, ctrlIrqEn := true }
theorem test_witness_irq :
    irqState.frameIrq = true ∧ irqState.blk.ready = true ∧ (2 : Word32).getLsbD 1 = true ∧
    (3 : Word32).getLsbD 2 = false ∧ see (exec (.wrStatus 2) irqState) State.frameIrq = some false ∧
    see (exec (.wrCtrl 3) irqState) State.frameIrq = some false ∧
    see (exec .vsyncRise irqState) State.frameIrq = some true := by decide
/-- Of the statements under the invariant: COUNT mode with written cells, clamped; HREF mode with a full row. -/
theorem test_witness_inv_count : Inv (on (at' (small .count 2 2) 2 0) fun b => { b with fb := pixState.blk.fb }) :=
  ⟨by decide, by decide, by decide, by decide, by decide, by decide, by decide, by decide, by decide⟩
theorem test_witness_inv_href : Inv (at' (small .href 2 2) 1 2) :=
  ⟨by decide, by decide, by decide, by decide, by decide, by decide, by decide, by decide, by decide⟩
/-- Of ConfigurationAndPinsReads: before the first sample. -/
theorem test_witness_inv_unprimed : Inv (on (small .href 2 2) fun b => { b with primed := false }) :=
  ⟨by decide, by decide, by decide, by decide, by decide, by decide, by decide, by decide, by decide⟩
/-- Of StepKeepsInv and CountModeNeverSetsRowLenErr: a step that answers, from such a state. -/
theorem test_witness_stepAnswers :
    ∃ t, step { irqState with pending := [{ rst := false, host := none, sample := some 0x1AA }] } = .next t := ⟨_, rfl⟩
/-- Of ReadyBufferIsImmutable and FrameCountDetectsSwap: one step that writes a pixel, without a swap or a reset. -/
theorem test_witness_runs :
    ∃ t, SwapFreeRun { irqState with pending := [{ rst := false, host := none, sample := some 0x1AA }] } t ∧
      ResetFreeRun 1 { irqState with pending := [{ rst := false, host := none, sample := some 0x1AA }] } t ∧
      t.blk.frameCount = irqState.blk.frameCount ∧ t.blk.fb = [(0, 0xAA)] :=
  ⟨_, .tail (.refl _) rfl rfl (by decide), .tail (.refl _) rfl rfl, rfl, rfl⟩

/-- Of BaseStatementsAssemble: the least operand that does not fit each field. -/
theorem test_witness_operandsTooLarge :
    2 ^ 11 ≤ 0x800 ∧ 2 ^ 32 ≤ 0x100000000 ∧ 2 ^ 16 ≤ 0x10000 ∧ 2 ^ 8 ≤ 0x100 ∧ (Stmt.pix 2 0 0).assemble Held.start = none ∧
    (Stmt.pix 1 0x10000 0).assemble Held.start = none ∧ (Stmt.pix 1 0 0x10000).assemble Held.start = none ∧
    (Stmt.host 0x4000 0x100000000).assemble Held.start = none := by decide

end Sys2Proof.Tests
end

section
/-! The scope: the legal parameters, what a step takes next, and the frame of a buffer write. -/

namespace Sys2Proof.Machine

/-! ## The legal parameters (R8, R9, R115) -/

theorem configValid_iff (c : Config) :
    c.valid = true ↔ 1 ≤ c.rows ∧ c.rows ≤ 65535 ∧ 1 ≤ c.cols ∧ c.cols ≤ 65535 := by
  simp [Config.valid, and_assoc]

/-- The numbers that name a mode are CONFIG's 0 and 1 (R100). -/
theorem rowAdvanceOf_of_le_one {n : Nat} (h : n ≤ 1) :
    ∃ m, rowAdvanceOf n = some m ∧ (m = .href ↔ n = 1) := by
  match n, h with
  | 0, _ => exact ⟨.count, rfl, by decide⟩
  | 1, _ => exact ⟨.href, rfl, by decide⟩

theorem rowAdvanceOf_of_one_lt {n : Nat} (h : 1 < n) : rowAdvanceOf n = none := by
  match n, h with
  | _ + 2, _ => rfl

theorem powerOn_of_valid {rows cols mode : Nat} {m : RowAdvance} (index : Nat) (hm : rowAdvanceOf mode = some m)
    (hv : Config.valid ⟨rows, cols, m⟩ = true) :
    powerOn rows cols mode index = .next { State.reset with cfg := ⟨rows, cols, m⟩, powerOnIndex := index } := by
  simp [powerOn, elaborate, hm, hv]

theorem powerOn_of_not_valid {rows cols mode : Nat} {m : RowAdvance} (index : Nat)
    (hm : rowAdvanceOf mode = some m) (hv : Config.valid ⟨rows, cols, m⟩ = false) :
    powerOn rows cols mode index = .refused .configInvalid := by
  simp [powerOn, elaborate, hm, hv]

theorem powerOn_of_noMode {mode : Nat} (rows cols index : Nat) (hm : rowAdvanceOf mode = none) :
    powerOn rows cols mode index = .refused .configInvalid := by
  simp [powerOn, elaborate, hm]

theorem step_of_not_valid {s : State} (h : s.cfg.valid = false) : step s = .refused .configInvalid := by
  simp [step, h]

/-! ## What `fetch` takes, by what is presented (R14, R120) -/

theorem fetch_of_nothing {s : State} (h : s.pending = []) : fetch s = (none, s.begin []) := by
  simp [fetch, h]

section
variable {s : State} {i : Instant} {rest : List Instant}

theorem fetch_of_rst (h : s.pending = i :: rest) (hr : i.rst = true) : fetch s = (some (.X 1), s.begin rest) := by
  simp [fetch, h, hr]

theorem fetch_of_host {q : HostRequest} (h : s.pending = i :: rest) (hr : i.rst = false) (hq : i.host = some q) :
    fetch s = (some q.word, s.begin (afterHost i rest)) := by
  simp [fetch, h, hr, hq]

theorem fetch_of_sample {v : Sample} (h : s.pending = i :: rest) (hr : i.rst = false) (hq : i.host = none)
    (hv : i.sample = some v) : fetch s = (some (.S v), s.begin rest) := by
  simp [fetch, h, hr, hq, hv]

theorem fetch_of_empty (h : s.pending = i :: rest) (hr : i.rst = false) (hq : i.host = none)
    (hv : i.sample = none) : fetch s = (none, s.begin rest) := by
  simp [fetch, h, hr, hq, hv]

end

/-! ## What a step with legal parameters does with the word it took -/

theorem step_of_noWord {s t : State} (hs : s.cfg.valid = true) (hf : fetch s = (none, t)) : step s = .next t := by
  simp [step, hs, hf]

theorem step_of_decode {s : State} {w : FormatWord} {ins : Instr} {p : List Instant} (hs : s.cfg.valid = true)
    (hf : fetch s = (some w, s.begin p)) (hd : decode s.cfg.rowAdvance w = .ok ins) :
    step s = exec ins (s.begin p) := by
  simp [step, hs, hf, hd]

/-- R56: the pixel port's word of a cell is the read of that cell. -/
theorem decode_pixelWord (m : RowAdvance) (b : BitVec 1) (r c : Half) :
    decode m (.P (b ++ r ++ c)) = .ok (.pixelRead b r c) := by
  simp [decode]

end Sys2Proof.Machine

namespace Sys2Proof.Proofs

open Sys2Proof.Machine

/-- Settles O39: the write that answers wrote the memory at one key, and different cells have different keys. -/
theorem bufferWriteChangesOneCell : Obligations.BufferWriteChangesOneCell := by
  intro s t b r c v h
  obtain ⟨-, rfl⟩ := bufWrite_eq_next.mp h
  refine ⟨bufRead_write_same s b r c v, fun b' r' c' hne => ?_⟩
  exact read_write_otherCell s.blk.fb v fun ⟨hb, hr, hc⟩ => hne (by rw [hb, hr, hc])

/-- Settles O8: by whether the number names a mode, and then by whether the geometry is legal. -/
theorem configInvalidIsRefused : Obligations.ConfigInvalidIsRefused := by
  refine ⟨fun rows cols mode index => ⟨?legal, ?illegal⟩, fun s hs => ?stepRefused⟩
  case legal =>
    rintro ⟨hr, hr', hc, hc', hmode⟩
    obtain ⟨m, hm, hiff⟩ := rowAdvanceOf_of_le_one hmode
    exact ⟨_, powerOn_of_valid index hm ((configValid_iff _).mpr ⟨hr, hr', hc, hc'⟩), rfl, rfl, hiff⟩
  case illegal =>
    intro hbad
    rcases Nat.lt_or_ge 1 mode with hmode | hmode
    · exact powerOn_of_noMode rows cols index (rowAdvanceOf_of_one_lt hmode)
    · obtain ⟨m, hm, -⟩ := rowAdvanceOf_of_le_one hmode
      refine powerOn_of_not_valid index hm (Bool.eq_false_iff.mpr fun hv => hbad ?_)
      obtain ⟨hr, hr', hc, hc'⟩ := (configValid_iff _).mp hv
      exact ⟨hr, hr', hc, hc', hmode⟩
  case stepRefused =>
    exact step_of_not_valid (Bool.eq_false_iff.mpr fun hv => hs ((configValid_iff _).mp hv))

/-- Settles O47: by what stands in the next instant, the word `fetch` takes and the instruction it decodes to. -/
theorem stepRunsDecodedInput : Obligations.StepRunsDecodedInput := by
  intro s hs
  refine ⟨fun hp => ?nothing, fun i rest hp => ⟨fun hr => ?rst, fun hr => ⟨?reg, ?pix, ?sample, ?empty⟩⟩⟩
  case nothing =>
    rw [step_of_noWord hs (fetch_of_nothing hp), State.begin, ← hp]
  case rst => exact step_of_decode hs (fetch_of_rst hp hr) rfl
  case reg =>
    intro sel wdata ins hq hd
    exact step_of_decode hs (fetch_of_host hp hr hq) hd
  case pix =>
    intro b r c hq
    exact step_of_decode hs (fetch_of_host hp hr hq) (decode_pixelWord ..)
  case sample =>
    intro v hq hv
    exact step_of_decode hs (fetch_of_sample hp hr hq hv) rfl
  case empty =>
    intro hq hv
    exact step_of_noWord hs (fetch_of_empty hp hr hq hv)

end Sys2Proof.Proofs
end

section
/-! What a step does, by who acts in it: the host, the reset input or a sample. -/

namespace Sys2Proof.Machine

/-! ## A host access, whole (R85–R104) -/

/-- The instructions of the two host ports. -/
def isHostAccess : Instr → Bool
  | .sample _ | .vsyncRise | .hrefFall | .pclkRiseCount _ | .pclkRiseHref _ | .pclkRiseBlank _ | .reset => false
  | _ => true

/-- The block after a host access: only the writes of CTRL, STATUS and the two saturating counters change it. -/
def hostBlk : Instr → Block → Block
  | .wrCtrl w, b =>
    { b with ctrlPclkEn := w.getLsbD 0, ctrlVsyncEn := w.getLsbD 1, ctrlIrqEn := w.getLsbD 2 }
  | .wrStatus w, b => { b with ready := b.ready && !w.getLsbD 1, rowLenErr := b.rowLenErr && !w.getLsbD 3 }
  | .wrOverrunCount _, b => { b with overrunCount := 0 }
  | .wrHandoffMissCount _, b => { b with handoffMissCount := 0 }
  | _, b => b

/-- What a host access answers, but for the response itself: it runs no event. -/
structure HostAnswer (i : Instr) (s t : State) : Prop where
  blk : t.blk = hostBlk i s.blk
  cfg : t.cfg = s.cfg
  powerOnIndex : t.powerOnIndex = s.powerOnIndex
  pending : t.pending = s.pending
  history : ∀ e, Record.event e ∈ t.history → Record.event e ∈ s.history

theorem execPixelRead_hostAnswer {b : BitVec 1} {r c : Half} {s t : State} (h : execPixelRead b r c s = .next t) :
    HostAnswer (.pixelRead b r c) s t := by
  unfold execPixelRead at h
  split_ifs at h <;> obtain rfl := Host.Outcome.next.inj h.symm
  · exact ⟨rfl, rfl, rfl, rfl, by simp⟩
  · exact ⟨rfl, rfl, rfl, rfl, by simp⟩
  · exact ⟨rfl, rfl, rfl, rfl, fun _ => id⟩

theorem exec_hostAnswer {i : Instr} {s t : State} (hi : isHostAccess i = true) (h : exec i s = .next t) :
    HostAnswer i s t := by
  cases i
  case pixelRead b r c => exact execPixelRead_hostAnswer h
  case sample | vsyncRise | hrefFall | pclkRiseCount | pclkRiseHref | pclkRiseBlank | reset => cases hi
  all_goals
    obtain rfl := Host.Outcome.next.inj h.symm
    exact ⟨rfl, rfl, rfl, rfl, fun _ => id⟩

/-! ## What only samples and the reset input touch -/

/-- The block keeps its cursor, its buffers and its history sample, and no error flag is set. -/
structure CaptureKept (b b' : Block) : Prop where
  row : b'.row = b.row
  col : b'.col = b.col
  active : b'.active = b.active
  frameCount : b'.frameCount = b.frameCount
  prev : b'.prev = b.prev
  primed : b'.primed = b.primed
  fb : b'.fb = b.fb
  rowLenErr : b'.rowLenErr = true → b.rowLenErr = true

theorem CaptureKept.refl (b : Block) : CaptureKept b b := ⟨rfl, rfl, rfl, rfl, rfl, rfl, rfl, id⟩

theorem hostBlk_captureKept (i : Instr) (b : Block) : CaptureKept b (hostBlk i b) := by
  unfold hostBlk
  split
  case h_2 => exact { CaptureKept.refl b with rowLenErr := fun h => (Bool.and_eq_true _ _ ▸ h).1 }
  all_goals exact { CaptureKept.refl b with }

/-- A step that captures nothing: the block waits, or the host has its access. -/
structure NoCapture (s t : State) : Prop where
  blk : CaptureKept s.blk t.blk
  cfg : t.cfg = s.cfg
  noEvent : ∀ e, Record.event e ∉ t.history

theorem noCapture_begin (s : State) (p : List Instant) : NoCapture s (s.begin p) :=
  ⟨.refl _, rfl, fun _ => List.not_mem_nil⟩

theorem noCapture_rejectWord (e : Reject) (s : State) (p : List Instant) :
    NoCapture s (rejectWord e (s.begin p)) := by
  cases e with
  | hostBusError sel => exact ⟨.refl _, rfl, by simp [rejectWord, hostBusError]⟩
  | noEvent _ => exact noCapture_begin s p
  | resetNotAsserted => exact noCapture_begin s p

theorem exec_noCapture {i : Instr} {s t : State} {p : List Instant} (hi : isHostAccess i = true)
    (h : exec i (s.begin p) = .next t) : NoCapture s t := by
  have ha := exec_hostAnswer hi h
  exact ⟨ha.blk ▸ hostBlk_captureKept i s.blk, ha.cfg, fun e he => List.not_mem_nil (ha.history e he)⟩

/-! ## What can come in at a port, decoded -/

theorem readInstr_isHostAccess (r : Reg) : isHostAccess r.readInstr = true := by cases r <;> rfl

theorem writeInstr_isHostAccess (r : Reg) (w : Word32) : isHostAccess (r.writeInstr w) = true := by
  cases r <;> rfl

theorem decodeReg_isHostAccess {sel : BitVec 16} {w : Word32} {i : Instr} (h : decodeReg sel w = .ok i) :
    isHostAccess i = true := by
  unfold decodeReg at h
  split at h
  · cases h
  · split at h
    · obtain rfl := Except.ok.inj h
      split
      · exact writeInstr_isHostAccess ..
      · exact readInstr_isHostAccess _
    · cases h

theorem decode_word_isHostAccess {m : RowAdvance} {q : HostRequest} {i : Instr} (h : decode m q.word = .ok i) :
    isHostAccess i = true := by
  cases q with
  | reg sel w => exact decodeReg_isHostAccess h
  | pix p => obtain rfl := Except.ok.inj h; rfl

theorem resetNext_cons {s : State} {i : Instant} {rest : List Instant} (h : s.pending = i :: rest) :
    resetNext s = i.rst := by
  simp [resetNext, h]

/-- What a step that answers did: the reset step, a sample step, or nothing that captures. -/
theorem step_by_agent {s t : State} (h : step s = .next t) :
    s.cfg.valid = true ∧ ∃ p,
      (resetNext s = true ∧ t = (s.begin p).setBlk (Block.afterReset s.blk.fb)) ∨
      (resetNext s = false ∧ ∃ v, execSample v (s.begin p) = .next t) ∨
      NoCapture s t := by
  obtain ⟨hv, p, ⟨-, rfl⟩ | ⟨w, i, hf, hd, hx⟩ | ⟨w, e, -, -, rfl⟩⟩ := step_cases h
  case inl => exact ⟨hv, p, .inr (.inr (noCapture_begin s p))⟩
  case inr.inr => exact ⟨hv, p, .inr (.inr (noCapture_rejectWord e s p))⟩
  case inr.inl =>
    refine ⟨hv, p, ?_⟩
    obtain ⟨rfl, j, rest, hp, hr⟩ | ⟨⟨q, rfl⟩ | ⟨v, rfl⟩, j, rest, hp, hr⟩ := fetch_word s hf
    · obtain rfl := Except.ok.inj hd
      exact .inl ⟨(resetNext_cons hp).trans hr, (Host.Outcome.next.inj hx).symm⟩
    · exact .inr (.inr (exec_noCapture (decode_word_isHostAccess hd) hx))
    · obtain rfl := Except.ok.inj hd
      exact .inr (.inl ⟨(resetNext_cons hp).trans hr, v, hx⟩)

end Sys2Proof.Machine
end

section
/-! The invariant of R22, R24 and R80, one rule per operation. -/

namespace Sys2Proof.Machine

/-! ## At reset and at power-on -/

theorem cols_pos_of_valid {cfg : Config} (h : cfg.valid = true) : 0 < cfg.cols := by
  obtain ⟨-, -, hpos, -⟩ := (configValid_iff cfg).mp h
  exact hpos

/-- A block at its reset values meets the invariant where its buffers do. -/
theorem inv_of_afterReset {s : State} (hb : s.blk = Block.afterReset s.blk.fb) (hv : s.cfg.valid = true)
    (hwf : s.blk.fb.wf = true) (hin : ∀ cell ∈ s.blk.fb, keyInSpace s.cfg cell.1 = true) : Inv s where
  cfg_valid := hv
  row_le := by rw [hb]; exact Nat.zero_le _
  count_col := fun _ => by rw [hb]; exact cols_pos_of_valid hv
  count_clamped := fun _ _ => by rw [hb]; rfl
  href_col := fun _ => by rw [hb]; exact Nat.zero_le _
  count_flag := fun _ => by rw [hb]; rfl
  prev_unprimed := fun _ => by rw [hb]; rfl
  fb_wf := hwf
  fb_inSpace := hin

/-- A power-on that answers was asked for legal parameters. -/
theorem powerOn_eq_next {rows cols mode index : Nat} {t : State} (h : powerOn rows cols mode index = .next t) :
    ∃ cfg : Config, cfg.valid = true ∧ t = { State.reset with cfg := cfg, powerOnIndex := index } := by
  cases hm : rowAdvanceOf mode with
  | none => rw [powerOn_of_noMode rows cols index hm] at h; cases h
  | some m =>
    cases hv : Config.valid ⟨rows, cols, m⟩
    · rw [powerOn_of_not_valid index hm hv] at h; cases h
    · rw [powerOn_of_valid index hm hv] at h
      exact ⟨_, hv, (Host.Outcome.next.inj h).symm⟩

/-! ## Under the named operations -/

/-- The invariant speaks only of the configuration and of what `CaptureKept` keeps. -/
theorem Inv.of_captureKept {s t : State} (h : Inv s) (hb : CaptureKept s.blk t.blk) (hc : t.cfg = s.cfg) : Inv t where
  cfg_valid := by rw [hc]; exact h.cfg_valid
  row_le := by rw [hc, hb.row]; exact h.row_le
  count_col := by rw [hc, hb.col]; exact h.count_col
  count_clamped := by rw [hc, hb.row, hb.col]; exact h.count_clamped
  href_col := by rw [hc, hb.col]; exact h.href_col
  count_flag := by
    rw [hc]
    exact fun hm => Bool.eq_false_iff.mpr fun he => Bool.eq_false_iff.mp (h.count_flag hm) (hb.rowLenErr he)
  prev_unprimed := by rw [hb.prev, hb.primed]; exact h.prev_unprimed
  fb_wf := by rw [hb.fb]; exact h.fb_wf
  fb_inSpace := by rw [hc, hb.fb]; exact h.fb_inSpace

section
variable {s : State}

theorem Inv.takeSample (h : Inv s) (cur : Sample) : Inv (takeSample cur s) :=
  { h with prev_unprimed := nofun }

theorem Inv.record (h : Inv s) (r : Record) : Inv (s.record r) := { h with }

theorem Inv.captureOverrun (h : Inv s) : Inv (captureOverrun s) := { h with }

theorem Inv.handoffMiss (h : Inv s) : Inv (handoffMiss s) := { h with }

theorem Inv.exposeFrame (h : Inv s) : Inv (exposeFrame s) := { h with }

theorem Inv.swapBuffers (h : Inv s) : Inv (swapBuffers s) :=
  { h with
    row_le := Nat.zero_le _
    count_col := fun _ => cols_pos_of_valid h.cfg_valid
    count_clamped := fun _ _ => rfl
    href_col := fun _ => Nat.zero_le _ }

/-- R24: in HREF mode the flag may be set. -/
theorem Inv.rowLengthMismatch (h : Inv s) (hm : s.cfg.rowAdvance = .href) : Inv (rowLengthMismatch s) :=
  { h with count_flag := fun hc => nomatch hm.symm.trans hc }

/-- The next row or column of a legal frame does not wrap at 16 bits. -/
theorem toNat_succ_of_lt {x : Half} {n : Nat} (h : x.toNat < n) (hn : n ≤ 65535) : (x + 1).toNat = x.toNat + 1 := by
  rw [BitVec.toNat_add]
  exact Nat.mod_eq_of_lt (by simp; omega)

theorem Inv.row_succ (h : Inv s) (hr : s.blk.row.toNat < s.cfg.rows) :
    (s.blk.row + 1).toNat = s.blk.row.toNat + 1 := by
  obtain ⟨-, hrows, -, -⟩ := (configValid_iff _).mp h.cfg_valid
  exact toNat_succ_of_lt hr hrows

theorem Inv.col_succ (h : Inv s) (hc : s.blk.col.toNat < s.cfg.cols) :
    (s.blk.col + 1).toNat = s.blk.col.toNat + 1 := by
  obtain ⟨-, -, -, hcols⟩ := (configValid_iff _).mp h.cfg_valid
  exact toNat_succ_of_lt hc hcols

/-- R22: below the clamp, the row can end in either mode. -/
theorem Inv.advanceRow (h : Inv s) (hr : s.blk.row.toNat < s.cfg.rows) : Inv (advanceRow s) :=
  { h with
    row_le := (h.row_succ hr).trans_le hr
    count_col := fun _ => cols_pos_of_valid h.cfg_valid
    count_clamped := fun _ _ => rfl
    href_col := fun _ => Nat.zero_le _ }

theorem Inv.advanceCol (h : Inv s) (hm : s.cfg.rowAdvance = .href) (hc : s.blk.col.toNat < s.cfg.cols) :
    Inv (advanceCol s) :=
  { h with
    count_col := fun hm' => nomatch hm.symm.trans hm'
    count_clamped := fun hm' => nomatch hm.symm.trans hm'
    href_col := fun _ => (h.col_succ hc).trans_le hc }

/-- R22: the count wraps the column before it reaches COLS. -/
theorem Inv.advanceByCount (h : Inv s) (hm : s.cfg.rowAdvance = .count) (hr : s.blk.row.toNat < s.cfg.rows) :
    Inv (advanceByCount s) := by
  have hc := h.count_col hm
  unfold Machine.advanceByCount
  split_ifs with hl
  · exact h.advanceRow hr
  · have hne := mt (colLast_iff s).mpr hl
    have hlt : s.blk.col.toNat + 1 < s.cfg.cols := by omega
    refine { h with
      count_col := fun _ => (h.col_succ hc).trans_lt hlt
      count_clamped := fun _ he => absurd he hr.ne
      href_col := fun hm' => nomatch hm.symm.trans hm' }

/-- A cell of the space has a key of the space. -/
theorem keyInSpace_cellKey {cfg : Config} {r c : Half} (b : BitVec 1) (h : inSpace cfg r c = true) :
    keyInSpace cfg (cellKey b r c) = true := by
  rw [keyInSpace, cellKey_row, cellKey_col, h, Bool.and_true]
  exact decide_eq_true (cellKey_lt b r c)

/-- R80: a write inside the space keeps the buffers' form and bounds. -/
theorem Inv.writeCell (h : Inv s) (b : BitVec 1) {r c : Half} (v : Byte) (hin : inSpace s.cfg r c = true) :
    Inv (s.setBlk { s.blk with fb := s.blk.fb.write (cellKey b r c) v }) :=
  { h with
    fb_wf := Memory.write_wf _ v h.fb_wf
    fb_inSpace := fun cell hc => by
      rcases Memory.mem_write hc with rfl | hc
      · exact keyInSpace_cellKey b hin
      · exact h.fb_inSpace cell hc }

end

/-! ## Under the events -/

section
variable {s t : State} {cur : Sample}

theorem Inv.vsyncRise (h : Inv s) (hx : execVsyncRise s = .next t) : Inv t := by
  rcases execVsyncRise_cases hx with ⟨-, rfl⟩ | ⟨-, rfl⟩
  · exact (h.record _).swapBuffers.handoffMiss.exposeFrame
  · exact (h.record _).swapBuffers.exposeFrame

theorem Inv.hrefFall (h : Inv s) (hm : s.cfg.rowAdvance = .href) (hx : execHrefFall s = .next t) : Inv t := by
  have hlt (hr : rowDone s = false) : s.blk.row.toNat < s.cfg.rows := by
    simpa [rowDone] using hr
  rcases execHrefFall_cases hx with ⟨-, rfl⟩ | ⟨hr, -, rfl⟩ | ⟨hr, -, rfl⟩
  · exact h.record _
  · exact ((h.record _).rowLengthMismatch hm).advanceRow (hlt hr)
  · exact (h.record _).advanceRow (hlt hr)

theorem Inv.pclkRiseCount (h : Inv s) (hm : s.cfg.rowAdvance = .count) (hx : execPclkRiseCount cur s = .next t) :
    Inv t := by
  rcases execPclkRiseCount_cases hx with ⟨-, rfl⟩ | ⟨-, hin, rfl⟩
  · exact (h.record _).captureOverrun
  · exact ((h.record _).writeCell _ _ hin).advanceByCount hm ((inSpace_iff ..).mp hin).1

theorem Inv.pclkRiseHref (h : Inv s) (hm : s.cfg.rowAdvance = .href) (hx : execPclkRiseHref cur s = .next t) :
    Inv t := by
  rcases execPclkRiseHref_cases hx with ⟨-, rfl⟩ | ⟨-, -, rfl⟩ | ⟨-, -, hin, rfl⟩
  · exact (h.record _).captureOverrun
  · exact (h.record _).captureOverrun.rowLengthMismatch hm
  · exact ((h.record _).writeCell _ _ hin).advanceCol hm ((inSpace_iff ..).mp hin).2

theorem Inv.pclkRiseBlank (h : Inv s) (hx : execPclkRiseBlank cur s = .next t) : Inv t := by
  obtain rfl := Host.Outcome.next.inj hx.symm
  exact h.record _

end

/-! ## Under the sample step: an event runs only in its mode (R59) -/

theorem raises_inMode {m : RowAdvance} {w : BitVec 22} {e : Event} (h : raises m w e = true) : e.inMode m = true :=
  ((raises_iff m w e).mp h).1

theorem Inv.sample {s t : State} {cur : Sample} (h : Inv s) (hx : execSample cur s = .next t) : Inv t := by
  have inMode {e : Event} {a : State} {w : BitVec 22} (hc : a.cfg = s.cfg)
      (hr : raises s.cfg.rowAdvance w e = true) : e.inMode a.cfg.rowAdvance = true := hc ▸ raises_inMode hr
  have keeps : Inv t ∧ t.cfg = s.cfg := by
    refine execSample_keeps (P := fun a => Inv a ∧ a.cfg = s.cfg) hx ⟨h, rfl⟩ ?vsync ?hrefFall ?count ?href ?blank
      ?take
    case vsync => exact fun _ _ a b ⟨ha, hc⟩ hb => ⟨ha.vsyncRise hb, (execVsyncRise_frame hb).cfg.trans hc⟩
    case hrefFall =>
      exact fun hr _ a b ⟨ha, hc⟩ hb =>
        ⟨ha.hrefFall (eq_of_beq (inMode hc hr)) hb, (execHrefFall_frame hb).cfg.trans hc⟩
    case count =>
      exact fun hr _ a b ⟨ha, hc⟩ hb =>
        ⟨ha.pclkRiseCount (eq_of_beq (inMode hc hr)) hb, (execPclkRiseCount_frame hb).cfg.trans hc⟩
    case href =>
      exact fun hr _ a b ⟨ha, hc⟩ hb =>
        ⟨ha.pclkRiseHref (eq_of_beq (inMode hc hr)) hb, (execPclkRiseHref_frame hb).cfg.trans hc⟩
    case blank => exact fun a b ⟨ha, hc⟩ hb => ⟨ha.pclkRiseBlank hb, (execPclkRiseBlank_frame hb).cfg.trans hc⟩
    case take => exact fun a ⟨ha, hc⟩ => ⟨ha.takeSample cur, hc⟩
  exact keeps.1

end Sys2Proof.Machine

namespace Sys2Proof.Proofs

open Sys2Proof.Machine

/-- Settles O48: both states have a block at its reset values, over empty buffers. -/
theorem invHoldsAtPowerOn : Obligations.InvHoldsAtPowerOn := by
  have fresh {s : State} (hb : s.blk = Block.afterReset []) (hv : s.cfg.valid = true) : Inv s := by
    have hfb : s.blk.fb = [] := by rw [hb]; rfl
    exact inv_of_afterReset (hfb.symm ▸ hb) hv (by rw [hfb]; rfl) (by simp [hfb])
  refine ⟨fresh rfl (by decide), fun rows cols mode index t h => ?_⟩
  obtain ⟨cfg, hv, rfl⟩ := powerOn_eq_next h
  exact fresh rfl hv

/-- Settles O49: by what the step did, each event of a sample keeping the invariant in its mode. -/
theorem stepKeepsInv : Obligations.StepKeepsInv := by
  intro s t hs h
  obtain ⟨hv, p, ⟨-, rfl⟩ | ⟨-, v, hx⟩ | hn⟩ := step_by_agent h
  · exact inv_of_afterReset rfl hv hs.fb_wf hs.fb_inSpace
  · exact Inv.sample (s := s.begin p) { hs with } hx
  · exact hs.of_captureKept hn.blk hn.cfg

end Sys2Proof.Proofs
end

section
/-! What only VSYNC_RISE does: it swaps the buffers and counts the frame (R81), and so a run's frame counter tells its
swaps. -/

namespace Sys2Proof.Machine

/-! ## The events that swap nothing -/

/-- The same buffer is active, no frame is counted, and the ready buffer reads the same (R45). -/
structure NoSwap (s t : State) : Prop where
  active : t.blk.active = s.blk.active
  frameCount : t.blk.frameCount = s.blk.frameCount
  readyBuffer : ∀ r c : Half, bufRead t (1 - s.blk.active) r c = bufRead s (1 - s.blk.active) r c

theorem NoSwap.refl (s : State) : NoSwap s s := ⟨rfl, rfl, fun _ _ => rfl⟩

theorem NoSwap.trans {s t u : State} (h : NoSwap s t) (k : NoSwap t u) : NoSwap s u where
  active := k.active.trans h.active
  frameCount := k.frameCount.trans h.frameCount
  readyBuffer := fun r c => (h.active ▸ k.readyBuffer r c).trans (h.readyBuffer r c)

/-- Of what the events write, what only VSYNC_RISE does: the swap and the hand-off (R16), and its own record. -/
structure NoVsync (s t : State) : Prop extends NoSwap s t where
  ready : t.blk.ready = s.blk.ready
  handoffMissCount : t.blk.handoffMissCount = s.blk.handoffMissCount
  recorded : Record.event .vsyncRise ∈ t.history ↔ Record.event .vsyncRise ∈ s.history

theorem NoVsync.refl (s : State) : NoVsync s s := ⟨.refl s, rfl, rfl, .rfl⟩

theorem NoVsync.trans {s t u : State} (h : NoVsync s t) (k : NoVsync t u) : NoVsync s u :=
  ⟨h.toNoSwap.trans k.toNoSwap, k.ready.trans h.ready, k.handoffMissCount.trans h.handoffMissCount,
    k.recorded.trans h.recorded⟩

theorem noVsync_record (s : State) {r : Record} (h : .event .vsyncRise ≠ r) : NoVsync s (s.record r) :=
  { NoVsync.refl s with recorded := by simp [h] }

theorem noVsync_captureOverrun (s : State) : NoVsync s (captureOverrun s) :=
  { NoVsync.refl s with recorded := by simp [captureOverrun] }

theorem noVsync_rowLengthMismatch (s : State) : NoVsync s (rowLengthMismatch s) :=
  { NoVsync.refl s with recorded := by simp [rowLengthMismatch] }

theorem noVsync_advanceRow (s : State) : NoVsync s (advanceRow s) := { NoVsync.refl s with }

theorem noVsync_advanceCol (s : State) : NoVsync s (advanceCol s) := { NoVsync.refl s with }

theorem noVsync_advanceByCount (s : State) : NoVsync s (advanceByCount s) := by
  unfold advanceByCount
  split_ifs
  · exact noVsync_advanceRow s
  · exact noVsync_advanceCol s

theorem ready_ne_active : ∀ b : BitVec 1, 1 - b ≠ b := by decide

/-- R45: a pixel goes to the active buffer, so the ready one keeps every cell. -/
theorem noVsync_writePixelCell (s : State) (r c : Half) (v : Byte) :
    NoVsync s (s.setBlk { s.blk with fb := s.blk.fb.write (cellKey s.blk.active r c) v }) :=
  { NoVsync.refl s with
    readyBuffer := fun _ _ => read_write_otherCell s.blk.fb v fun h => ready_ne_active s.blk.active h.1 }

section
variable {cur : Sample} {s t : State}

theorem execHrefFall_noVsync (h : execHrefFall s = .next t) : NoVsync s t := by
  have hr := noVsync_record s (r := .event .hrefFall) nofun
  rcases execHrefFall_cases h with ⟨-, rfl⟩ | ⟨-, -, rfl⟩ | ⟨-, -, rfl⟩
  · exact hr
  · exact (hr.trans (noVsync_rowLengthMismatch _)).trans (noVsync_advanceRow _)
  · exact hr.trans (noVsync_advanceRow _)

theorem execPclkRiseCount_noVsync (h : execPclkRiseCount cur s = .next t) : NoVsync s t := by
  have hr := noVsync_record s (r := .event .pclkRiseCount) nofun
  rcases execPclkRiseCount_cases h with ⟨-, rfl⟩ | ⟨-, -, rfl⟩
  · exact hr.trans (noVsync_captureOverrun _)
  · exact (hr.trans (noVsync_writePixelCell _ _ _ _)).trans (noVsync_advanceByCount _)

theorem execPclkRiseHref_noVsync (h : execPclkRiseHref cur s = .next t) : NoVsync s t := by
  have hr := noVsync_record s (r := .event .pclkRiseHref) nofun
  rcases execPclkRiseHref_cases h with ⟨-, rfl⟩ | ⟨-, -, rfl⟩ | ⟨-, -, -, rfl⟩
  · exact hr.trans (noVsync_captureOverrun _)
  · exact (hr.trans (noVsync_captureOverrun _)).trans (noVsync_rowLengthMismatch _)
  · exact (hr.trans (noVsync_writePixelCell _ _ _ _)).trans (noVsync_advanceCol _)

theorem execPclkRiseBlank_noVsync (h : execPclkRiseBlank cur s = .next t) : NoVsync s t := by
  obtain rfl := Host.Outcome.next.inj h.symm
  exact noVsync_record s nofun

/-! ## VSYNC_RISE -/

theorem execVsyncRise_frameCount (h : execVsyncRise s = .next t) : t.blk.frameCount = s.blk.frameCount + 1 := by
  rcases execVsyncRise_cases h with ⟨-, rfl⟩ | ⟨-, rfl⟩ <;> rfl

theorem execVsyncRise_ready (h : execVsyncRise s = .next t) : t.blk.ready = true := by
  rcases execVsyncRise_cases h with ⟨-, rfl⟩ | ⟨-, rfl⟩ <;> rfl

theorem execVsyncRise_rowLenErr (h : execVsyncRise s = .next t) : t.blk.rowLenErr = s.blk.rowLenErr := by
  rcases execVsyncRise_cases h with ⟨-, rfl⟩ | ⟨-, rfl⟩ <;> rfl

theorem execVsyncRise_overrunCount (h : execVsyncRise s = .next t) : t.blk.overrunCount = s.blk.overrunCount := by
  rcases execVsyncRise_cases h with ⟨-, rfl⟩ | ⟨-, rfl⟩ <;> rfl

/-- R29: the miss is counted where the finished frame was not acknowledged, and saturates. -/
theorem execVsyncRise_handoffMissCount (h : execVsyncRise s = .next t) :
    t.blk.handoffMissCount = sat32 (s.blk.handoffMissCount.toNat + if s.blk.ready then 1 else 0) := by
  rcases execVsyncRise_cases h with ⟨hr, rfl⟩ | ⟨hr, rfl⟩
  · rw [hr]; rfl
  · rw [hr]; exact (sat32_toNat_self _).symm

theorem execVsyncRise_recorded (h : execVsyncRise s = .next t) : Record.event .vsyncRise ∈ t.history := by
  have hm : Record.event .vsyncRise ∈ (s.record (.event .vsyncRise)).history := by simp
  rcases execVsyncRise_cases h with ⟨-, rfl⟩ | ⟨-, rfl⟩
  · exact List.mem_append_left _ hm
  · exact hm

/-! ## The sample step: VSYNC_RISE comes first, if at all -/

theorem noVsync_takeSample (s : State) : NoVsync s (takeSample cur s) := { NoVsync.refl s with }

/-- A sample step either runs no VSYNC_RISE, or what follows its one VSYNC_RISE swaps nothing more. -/
theorem execSample_swap (h : execSample cur s = .next t) :
    NoVsync s t ∨ ∃ u, execVsyncRise s = .next u ∧ NoVsync u t := by
  rcases execSample_cases h with ⟨-, rfl⟩ | ⟨-, s1, s2, s3, s4, s5, h1, h2, h3, h4, h5, rfl⟩
  · exact .inl (noVsync_takeSample s)
  · have keeps {c : Bool} {f : State → Result} {a b : State} (hx : runIf c f a = .next b)
        (hf : ∀ {x y}, f x = .next y → NoVsync x y) (ha : NoVsync s1 a) : NoVsync s1 b :=
      runIf_keeps hx ha fun _ _ _ hx hy => hx.trans (hf hy)
    have rest : NoVsync s1 s5 :=
      keeps h5 execPclkRiseBlank_noVsync <| keeps h4 execPclkRiseHref_noVsync <|
      keeps h3 execPclkRiseCount_noVsync <| keeps h2 execHrefFall_noVsync (.refl s1)
    have rest := rest.trans (noVsync_takeSample (cur := cur) s5)
    rcases runIf_eq_next.mp h1 with ⟨-, hv⟩ | ⟨-, rfl⟩
    · exact .inr ⟨s1, hv, rest⟩
    · exact .inl rest

/-! ## One step, and a run -/

theorem NoCapture.noSwap (h : NoCapture s t) : NoSwap s t where
  active := h.blk.active
  frameCount := h.blk.frameCount
  readyBuffer := fun _ _ => by rw [bufRead, bufRead, h.blk.fb]

/-- A step that is no reset either counts one swap, which its history shows, or swaps nothing and shows none. -/
theorem step_swap (hr : resetNext s = false) (h : step s = .next t) :
    (t.blk.frameCount = s.blk.frameCount + 1 ∧ Record.event .vsyncRise ∈ t.history) ∨
    (NoSwap s t ∧ Record.event .vsyncRise ∉ t.history) := by
  obtain ⟨-, p, ⟨hr', -⟩ | ⟨-, v, hx⟩ | hn⟩ := step_by_agent h
  · exact absurd (hr.symm.trans hr') nofun
  · rcases execSample_swap hx with hk | ⟨u, hv, hk⟩
    · exact .inr ⟨{ hk with }, fun hm => List.not_mem_nil (hk.recorded.mp hm)⟩
    · have counted := execVsyncRise_frameCount (s := s.begin p) hv
      exact .inl ⟨hk.frameCount.trans counted, hk.recorded.mpr (execVsyncRise_recorded hv)⟩
  · exact .inr ⟨hn.noSwap, hn.noEvent _⟩

theorem step_noSwap (hr : resetNext s = false) (h : step s = .next t) (hm : Record.event .vsyncRise ∉ t.history) :
    NoSwap s t :=
  (step_swap hr h).elim (fun hs => absurd hs.2 hm) And.left

/-- R45, R47: along a swap-free run. -/
theorem SwapFreeRun.noSwap (h : SwapFreeRun s t) : NoSwap s t := by
  induction h with
  | refl => exact .refl s
  | tail _ hr hx hm ih => exact ih.trans (step_noSwap hr hx hm)

/-- The frame counter of a reset-free run has counted its swaps, at most one a step; with none the run is swap-free. -/
theorem ResetFreeRun.swaps {n : Nat} (h : ResetFreeRun n s t) :
    ∃ k ≤ n, t.blk.frameCount = s.blk.frameCount + BitVec.ofNat 32 k ∧ (k = 0 → SwapFreeRun s t) := by
  induction h with
  | refl => exact ⟨0, le_rfl, (BitVec.add_zero _).symm, fun _ => .refl _⟩
  | @tail n s u t hrun hr hx ih =>
    obtain ⟨k, hk, hf, hfree⟩ := ih
    rcases step_swap hr hx with ⟨hs, -⟩ | ⟨hs, hm⟩
    · refine ⟨k + 1, Nat.succ_le_succ hk, ?_, nofun⟩
      rw [hs, hf, BitVec.add_assoc, BitVec.ofNat_add]
      rfl
    · exact ⟨k, Nat.le_succ_of_le hk, hs.frameCount.trans hf, fun h0 => .tail (hfree h0) hr hx hm⟩

end

end Sys2Proof.Machine

namespace Sys2Proof.Proofs

open Sys2Proof.Machine

/-- Settles O52: the counter moved by the number of swaps, which is below 2^32 and 0 modulo 2^32. -/
theorem frameCountDetectsSwap : Obligations.FrameCountDetectsSwap := by
  intro n s t hn hrun hsame
  obtain ⟨k, hk, hf, hfree⟩ := hrun.swaps
  have hzero : BitVec.ofNat 32 k = 0 := add_eq_left.mp (hf.symm.trans hsame)
  have hk0 : k = 0 := by
    have := congrArg BitVec.toNat hzero
    rwa [BitVec.toNat_ofNat, Nat.mod_eq_of_lt (hk.trans_lt hn)] at this
  have hrun := hfree hk0
  exact ⟨hrun, hrun.noSwap.active, hrun.noSwap.readyBuffer⟩

end Sys2Proof.Proofs
end

section
/-! The writers of R16, the counters of R28–R30 and the interrupt level of R31. -/

namespace Sys2Proof.Machine

/-! ## The five elements that a host write can change (R87, R89, R93, R95) -/

section
variable {i : Instr} {b : Block}

theorem hostBlk_ready (h : writesReady i = false) : (hostBlk i b).ready = b.ready := by
  unfold hostBlk
  split
  case h_2 => cases h
  all_goals rfl

theorem hostBlk_rowLenErr (h : writesRowLenErr i = false) : (hostBlk i b).rowLenErr = b.rowLenErr := by
  unfold hostBlk
  split
  case h_2 => cases h
  all_goals rfl

theorem hostBlk_ctrl (h : writesCtrl i = false) :
    (hostBlk i b).ctrlPclkEn = b.ctrlPclkEn ∧ (hostBlk i b).ctrlVsyncEn = b.ctrlVsyncEn ∧
      (hostBlk i b).ctrlIrqEn = b.ctrlIrqEn := by
  unfold hostBlk
  split
  case h_1 => cases h
  all_goals exact ⟨rfl, rfl, rfl⟩

theorem hostBlk_overrunCount (h : writesOverrun i = false) : (hostBlk i b).overrunCount = b.overrunCount := by
  unfold hostBlk
  split
  case h_3 => cases h
  all_goals rfl

theorem hostBlk_handoffMissCount (h : writesHandoffMiss i = false) :
    (hostBlk i b).handoffMissCount = b.handoffMissCount := by
  unfold hostBlk
  split
  case h_4 => cases h
  all_goals rfl

end

/-! ## What the events leave of the flag and the counters -/

section
variable {cur : Sample} {s t : State}

theorem execHrefFall_overrunCount (h : execHrefFall s = .next t) : t.blk.overrunCount = s.blk.overrunCount := by
  rcases execHrefFall_cases h with ⟨-, rfl⟩ | ⟨-, -, rfl⟩ | ⟨-, -, rfl⟩ <;> rfl

theorem advanceByCount_overrunCount (s : State) : (advanceByCount s).blk.overrunCount = s.blk.overrunCount := by
  unfold advanceByCount
  split_ifs <;> rfl

theorem advanceByCount_rowLenErr (s : State) : (advanceByCount s).blk.rowLenErr = s.blk.rowLenErr := by
  unfold advanceByCount
  split_ifs <;> rfl

theorem execPclkRiseCount_rowLenErr (h : execPclkRiseCount cur s = .next t) : t.blk.rowLenErr = s.blk.rowLenErr := by
  rcases execPclkRiseCount_cases h with ⟨-, rfl⟩ | ⟨-, -, rfl⟩
  · rfl
  · exact advanceByCount_rowLenErr _

theorem execPclkRiseBlank_blk (h : execPclkRiseBlank cur s = .next t) : t.blk = s.blk := by
  obtain rfl := Host.Outcome.next.inj h.symm
  rfl

/-- R28: a pixel event counts one dropped pixel, saturating, or none. -/
theorem execPclkRiseCount_overrunCount (h : execPclkRiseCount cur s = .next t) :
    t.blk.overrunCount = sat32 (s.blk.overrunCount.toNat + 1) ∨ t.blk.overrunCount = s.blk.overrunCount := by
  rcases execPclkRiseCount_cases h with ⟨-, rfl⟩ | ⟨-, -, rfl⟩
  · exact .inl rfl
  · exact .inr (advanceByCount_overrunCount _)

theorem execPclkRiseHref_overrunCount (h : execPclkRiseHref cur s = .next t) :
    t.blk.overrunCount = sat32 (s.blk.overrunCount.toNat + 1) ∨ t.blk.overrunCount = s.blk.overrunCount := by
  rcases execPclkRiseHref_cases h with ⟨-, rfl⟩ | ⟨-, -, rfl⟩ | ⟨-, -, -, rfl⟩
  · exact .inl rfl
  · exact .inl rfl
  · exact .inr rfl

/-- R24: in COUNT mode neither HREF event is raised, so a sample leaves the flag. -/
theorem execSample_rowLenErr_count (hm : s.cfg.rowAdvance = .count) (h : execSample cur s = .next t) :
    t.blk.rowLenErr = s.blk.rowLenErr := by
  have notHref {e : Event} {w : BitVec 22} (hmode : e.inMode .count = false)
      (hr : raises s.cfg.rowAdvance w e = true) : False :=
    absurd (hm ▸ raises_inMode hr) (Bool.eq_false_iff.mp hmode)
  refine execSample_keeps (P := fun a => a.blk.rowLenErr = s.blk.rowLenErr) h rfl ?vsync ?hrefFall ?count ?href ?blank
    ?take
  case vsync => exact fun _ _ a b ha hb => (execVsyncRise_rowLenErr hb).trans ha
  case hrefFall => exact fun hr => (notHref rfl hr).elim
  case count => exact fun _ _ a b ha hb => (execPclkRiseCount_rowLenErr hb).trans ha
  case href => exact fun hr => (notHref rfl hr).elim
  case blank => exact fun a b ha hb => (congrArg Block.rowLenErr (execPclkRiseBlank_blk hb)).trans ha
  case take => exact fun a ha => ha

end

/-- R28: a counter that saturates moves up by at most 1, and not beyond its largest value. -/
theorem sat32_succ_bounds (x : Word32) :
    x.toNat ≤ (sat32 (x.toNat + 1)).toNat ∧ (sat32 (x.toNat + 1)).toNat ≤ x.toNat + 1 ∧
      (x = 0xFFFFFFFF → sat32 (x.toNat + 1) = 0xFFFFFFFF) := by
  have hx := x.isLt
  rw [sat32_toNat]
  refine ⟨by omega, by omega, ?_⟩
  rintro rfl
  rfl

theorem frameIrq_iff (s : State) : s.frameIrq = true ↔ s.blk.ready = true ∧ s.blk.ctrlIrqEn = true := by
  simp [State.frameIrq]

end Sys2Proof.Machine

namespace Sys2Proof.Proofs

open Sys2Proof.Machine

/-- Settles O43: each counter's one way to move, as a number. -/
theorem countersSaturateOrWrap : Obligations.CountersSaturateOrWrap := by
  refine fun s t cur => ⟨fun h => ?pixel, fun h => ⟨?miss, ?frames⟩⟩
  case pixel =>
    have moved : t.blk.overrunCount = sat32 (s.blk.overrunCount.toNat + 1) ∨
        t.blk.overrunCount = s.blk.overrunCount :=
      h.elim execPclkRiseCount_overrunCount execPclkRiseHref_overrunCount
    rcases moved with he | he <;> rw [he]
    · exact sat32_succ_bounds _
    · exact ⟨le_rfl, Nat.le_succ _, id⟩
  case miss => rw [execVsyncRise_handoffMissCount h, sat32_toNat]
  case frames => rw [execVsyncRise_frameCount h, BitVec.toNat_add]; rfl

/-- Settles O45: host accesses by the block they answer, the events and the sample step by their frames. -/
theorem onlyNamedInstrsWrite : Obligations.OnlyNamedInstrsWrite := by
  intro i s t h
  by_cases hi : isHostAccess i = true
  · have a := exec_hostAnswer hi h
    have k := hostBlk_captureKept i s.blk
    rw [a.blk]
    exact ⟨fun _ => ⟨k.row, k.col⟩, fun _ => ⟨k.active, k.frameCount⟩, hostBlk_ready, hostBlk_rowLenErr, hostBlk_ctrl,
      hostBlk_overrunCount, hostBlk_handoffMissCount, fun _ => ⟨k.prev, k.primed⟩, a.cfg, a.powerOnIndex, a.pending⟩
  cases i
  case sample v =>
    have e := execSample_frame h
    exact ⟨nofun, nofun, nofun, nofun, fun _ => ⟨e.ctrlPclkEn, e.ctrlVsyncEn, e.ctrlIrqEn⟩, nofun, nofun, nofun,
      e.cfg, e.powerOnIndex, e.pending⟩
  case vsyncRise =>
    have e := execVsyncRise_frame h
    exact ⟨nofun, nofun, nofun, fun _ => execVsyncRise_rowLenErr h,
      fun _ => ⟨e.ctrlPclkEn, e.ctrlVsyncEn, e.ctrlIrqEn⟩, fun _ => execVsyncRise_overrunCount h, nofun,
      fun _ => ⟨e.prev, e.primed⟩, e.cfg, e.powerOnIndex, e.pending⟩
  case hrefFall =>
    have e := execHrefFall_frame h
    have n := execHrefFall_noVsync h
    exact ⟨nofun, fun _ => ⟨n.active, n.frameCount⟩, fun _ => n.ready, nofun,
      fun _ => ⟨e.ctrlPclkEn, e.ctrlVsyncEn, e.ctrlIrqEn⟩, fun _ => execHrefFall_overrunCount h,
      fun _ => n.handoffMissCount, fun _ => ⟨e.prev, e.primed⟩, e.cfg, e.powerOnIndex, e.pending⟩
  case pclkRiseCount cur =>
    have e := execPclkRiseCount_frame h
    have n := execPclkRiseCount_noVsync h
    exact ⟨nofun, fun _ => ⟨n.active, n.frameCount⟩, fun _ => n.ready, fun _ => execPclkRiseCount_rowLenErr h,
      fun _ => ⟨e.ctrlPclkEn, e.ctrlVsyncEn, e.ctrlIrqEn⟩, nofun, fun _ => n.handoffMissCount,
      fun _ => ⟨e.prev, e.primed⟩, e.cfg, e.powerOnIndex, e.pending⟩
  case pclkRiseHref cur =>
    have e := execPclkRiseHref_frame h
    have n := execPclkRiseHref_noVsync h
    exact ⟨nofun, fun _ => ⟨n.active, n.frameCount⟩, fun _ => n.ready, nofun,
      fun _ => ⟨e.ctrlPclkEn, e.ctrlVsyncEn, e.ctrlIrqEn⟩, nofun, fun _ => n.handoffMissCount,
      fun _ => ⟨e.prev, e.primed⟩, e.cfg, e.powerOnIndex, e.pending⟩
  case pclkRiseBlank cur =>
    obtain rfl := Host.Outcome.next.inj h.symm
    simp
  case reset =>
    obtain rfl := Host.Outcome.next.inj h.symm
    exact ⟨nofun, nofun, nofun, nofun, nofun, nofun, nofun, nofun, rfl, rfl, rfl⟩
  all_goals exact absurd rfl hi

/-- Settles O46: a reset clears the flag, a COUNT-mode sample leaves it, and no other step sets it. -/
theorem countModeNeverSetsRowLenErr : Obligations.CountModeNeverSetsRowLenErr := by
  intro s t hm h he
  obtain ⟨-, p, ⟨-, rfl⟩ | ⟨-, v, hx⟩ | hn⟩ := step_by_agent h
  · cases he
  · exact (execSample_rowLenErr_count (s := s.begin p) hm hx).symm.trans he
  · exact hn.blk.rowLenErr he

/-- Settles O42: the level is the two bits, and each of the three instructions fixes one of them. -/
theorem frameIrqLevel : Obligations.FrameIrqLevel := by
  refine fun s t w => ⟨frameIrq_iff s, fun h hw => ?status, fun h hw => ?ctrl, fun h => ?vsync⟩
  case status =>
    obtain rfl := Host.Outcome.next.inj h.symm
    show ((s.blk.ready && !w.getLsbD 1) && s.blk.ctrlIrqEn) = false
    simp only [hw, Bool.not_true, Bool.and_false, Bool.false_and]
  case ctrl =>
    obtain rfl := Host.Outcome.next.inj h.symm
    show (s.blk.ready && w.getLsbD 2) = false
    simp only [hw, Bool.and_false]
  case vsync =>
    rw [State.frameIrq, execVsyncRise_ready h, (execVsyncRise_frame h).ctrlIrqEn, Bool.true_and]

end Sys2Proof.Proofs
end

section
/-! The frame-buffer memory: its canonical form and its offsets, reads and the acknowledgement as the host sees them, and
the configuration along a run. -/

namespace Sys2Proof.Machine

/-! ## A run changes no parameter (R32) -/

theorem step_cfg {s t : State} (h : step s = .next t) : t.cfg = s.cfg := by
  obtain ⟨-, p, ⟨-, rfl⟩ | ⟨-, v, hx⟩ | hn⟩ := step_by_agent h
  · rfl
  · exact (execSample_frame hx).cfg
  · exact hn.cfg

theorem SwapFreeRun.cfg {s t : State} (h : SwapFreeRun s t) : t.cfg = s.cfg := by
  induction h with
  | refl => rfl
  | tail _ _ hx _ ih => exact (step_cfg hx).trans ih

/-! ## The response of a host access (R40, R86–R104) -/

/-- The two states differ in the inputs and the outputs at most, which no response shows. -/
structure SameInstance (s s' : State) : Prop where
  blk : s'.blk = s.blk
  cfg : s'.cfg = s.cfg
  powerOnIndex : s'.powerOnIndex = s.powerOnIndex

theorem execPixelRead_response {b : BitVec 1} {r c : Half} {s s' t : State} (hs : SameInstance s s')
    (h : execPixelRead b r c s = .next t) : ∃ t', execPixelRead b r c s' = .next t' ∧ t'.response = t.response := by
  have hcell : cellByte s' b r c = cellByte s b r c := by
    rw [cellByte, cellByte, bufRead, bufRead, hs.blk, hs.powerOnIndex]
  unfold execPixelRead at h ⊢
  rw [hs.cfg, hs.blk, hcell]
  split_ifs at h ⊢ <;> obtain rfl := Host.Outcome.next.inj h.symm <;> exact ⟨_, rfl, rfl⟩

/-- The same host access answers alike in two states that share the block, the parameters and the power-on. -/
theorem exec_response {i : Instr} {s s' t : State} (hi : isHostAccess i = true) (hs : SameInstance s s')
    (h : exec i s = .next t) : ∃ t', exec i s' = .next t' ∧ t'.response = t.response := by
  cases i
  case pixelRead b r c => exact execPixelRead_response hs h
  case sample | vsyncRise | hrefFall | pclkRiseCount | pclkRiseHref | pclkRiseBlank | reset => cases hi
  all_goals
    obtain rfl := Host.Outcome.next.inj h.symm
    obtain ⟨blk, cfg, index, pending, response, history⟩ := s
    obtain ⟨rfl, rfl, rfl⟩ := hs
    exact ⟨_, rfl, rfl⟩

/-! ## The canonical form: the least key is the head's -/

theorem Memory.above_of_lt_head {k a : Nat} {w : Byte} {m : Memory} (hwf : Memory.wf ((a, w) :: m) = true)
    (h : k < a) : Memory.above k ((a, w) :: m) :=
  List.forall_mem_cons.mpr ⟨h, fun cell hc => h.trans (((Memory.wf_cons a w m).mp hwf).1 cell hc)⟩

theorem Memory.read_head (a : Nat) (w : Byte) (m : Memory) : Memory.read ((a, w) :: m) a = some w := if_pos rfl

theorem Memory.read_tail {a k : Nat} (w : Byte) (m : Memory) (h : a ≠ k) :
    Memory.read ((a, w) :: m) k = m.read k := if_neg h

/-- Of two memories that read the same, the second lists the first's head or a key below it. -/
theorem Memory.head_le_of_read_eq {a b : Nat} {w x : Byte} {m m' : Memory}
    (hwf : Memory.wf ((b, x) :: m') = true)
    (h : ∀ k, Memory.read ((a, w) :: m) k = Memory.read ((b, x) :: m') k) : b ≤ a := by
  by_contra hlt
  have hnone := Memory.read_of_above (Memory.above_of_lt_head hwf (Nat.lt_of_not_le hlt))
  exact nomatch (Memory.read_head a w m).symm.trans ((h a).trans hnone)

/-- Canonical memories that read the same have tails that read the same. -/
theorem Memory.tail_read_eq {a : Nat} {w x : Byte} {m m' : Memory} (hm : m.above a) (hm' : m'.above a)
    (h : ∀ k, Memory.read ((a, w) :: m) k = Memory.read ((a, x) :: m') k) (k : Nat) : m.read k = m'.read k := by
  by_cases hk : a = k
  · subst hk
    rw [Memory.read_of_above hm, Memory.read_of_above hm']
  · rw [← Memory.read_tail w m hk, h k, Memory.read_tail x m' hk]

theorem Memory.eq_of_read_eq {m m' : Memory} (hm : m.wf = true) (hm' : m'.wf = true)
    (h : ∀ k, m.read k = m'.read k) : m = m' := by
  induction m generalizing m' with
  | nil =>
    cases m' with
    | nil => rfl
    | cons head' m' => exact nomatch (h head'.1).trans (Memory.read_head head'.1 head'.2 m')
  | cons head m ih =>
    obtain ⟨a, w⟩ := head
    cases m' with
    | nil => exact nomatch (Memory.read_head a w m).symm.trans (h a)
    | cons head' m' =>
      obtain ⟨b, x⟩ := head'
      obtain rfl : a = b := Nat.le_antisymm (Memory.head_le_of_read_eq hm fun k => (h k).symm)
        (Memory.head_le_of_read_eq hm' h)
      have hval : some w = some x := by rw [← Memory.read_head a w m, h a, Memory.read_head]
      obtain rfl := Option.some.inj hval
      obtain ⟨habove, hm⟩ := (Memory.wf_cons a w m).mp hm
      obtain ⟨habove', hm'⟩ := (Memory.wf_cons a w m').mp hm'
      rw [ih hm hm' (Memory.tail_read_eq habove habove' h)]

/-! ## The row-major offset (R35) -/

/-- The offset gives the row and the column back, as quotient and remainder. -/
theorem linearOffset_div_mod {cfg : Config} {c : Nat} (r : Nat) (hc : c < cfg.cols) :
    linearOffset cfg r c / cfg.cols = r ∧ linearOffset cfg r c % cfg.cols = c :=
  (Nat.div_mod_unique (Nat.zero_lt_of_lt hc)).mpr ⟨by rw [linearOffset, Nat.mul_comm, Nat.add_comm], hc⟩

/-! ## A pixel write that names no cell (R33) -/

theorem writePixel_outside {cur : Sample} {adv : State → State} {s : State}
    (h : inSpace s.cfg s.blk.row s.blk.col = false) :
    writePixel cur adv s = .fault (.cellOutOfRange s.blk.active s.blk.row s.blk.col) := by
  simp [writePixel, bufWrite, h, andThen]

/-! ## Runs of instructions, and the swap (R81) -/

theorem execAll_cons {i : Instr} {is : List Instr} {s t : State} (h : exec i s = .next t) :
    execAll (i :: is) s = execAll is t := by
  rw [execAll, h, andThen_next]

theorem execVsyncRise_active {s t : State} (h : execVsyncRise s = .next t) : t.blk.active = 1 - s.blk.active := by
  rcases execVsyncRise_cases h with ⟨-, rfl⟩ | ⟨-, rfl⟩ <;> rfl

end Sys2Proof.Machine

namespace Sys2Proof.Proofs

open Sys2Proof.Machine

/-- Settles O51: along the run no step swaps, a pixel goes to the other buffer, and no step changes a parameter. -/
theorem readyBufferIsImmutable : Obligations.ReadyBufferIsImmutable :=
  fun _ _ h => ⟨h.noSwap.active, h.cfg, h.noSwap.readyBuffer⟩

/-- Settles O38: a read keeps the block, the parameters and the power-on, and its response shows nothing else. -/
theorem readsAreIdempotent : Obligations.ReadsAreIdempotent := by
  intro i b r c s t hi h
  have hread : isHostAccess i = true ∧ ∀ blk, hostBlk i blk = blk := by
    simp only [List.mem_cons, List.not_mem_nil, or_false] at hi
    rcases hi with rfl | rfl | rfl | rfl | rfl | rfl | rfl | rfl | rfl | rfl <;> exact ⟨rfl, fun _ => rfl⟩
  obtain ⟨hhost, hkeep⟩ := hread
  have first := exec_hostAnswer hhost h
  have hblk : t.blk = s.blk := first.blk.trans (hkeep _)
  obtain ⟨u, hu, hresp⟩ := exec_response hhost ⟨hblk, first.cfg, first.powerOnIndex⟩ h
  have second := exec_hostAnswer hhost hu
  exact ⟨hblk, first.cfg, u, hu, hresp, (second.blk.trans (hkeep _)).trans hblk⟩

/-- Settles O40: equal reads fix the heads and then the tails, and a write keeps the keys rising. -/
theorem memoryIsCanonical : Obligations.MemoryIsCanonical :=
  ⟨fun _ _ => Memory.eq_of_read_eq, fun _ => Memory.write_wf⟩

/-- Settles O41: division by COLS gives the row and the column back. -/
theorem linearOffsetIsInjective : Obligations.LinearOffsetIsInjective := by
  intro cfg r c r' c' hr hc _ hc'
  obtain ⟨hdiv, hmod⟩ := linearOffset_div_mod r hc
  obtain ⟨hdiv', hmod'⟩ := linearOffset_div_mod r' hc'
  refine ⟨(Nat.div_lt_iff_lt_mul (Nat.zero_lt_of_lt hc)).mp (hdiv.symm ▸ hr), fun he => ?_⟩
  rw [he] at hdiv hmod
  exact ⟨hdiv.symm.trans hdiv', hmod.symm.trans hmod'⟩

/-- Settles O16: the frame is not complete, so the pixel is written, at a column outside the space. -/
theorem pclkRiseCountOutsideSpaceFaults : Obligations.PclkRiseCountOutsideSpaceFaults := by
  intro s cur hr hc
  have hopen : rowDone s = false := Bool.eq_false_iff.mpr fun h => hr.not_ge ((rowDone_iff s).mp h)
  have hout : inSpace s.cfg s.blk.row s.blk.col = false :=
    Bool.eq_false_iff.mpr fun h => hc.not_gt ((inSpace_iff ..).mp h).2
  exact (execPclkRiseCount_open hopen).trans (writePixel_outside hout)

/-- Settles O44: the read changes nothing, VSYNC_RISE finds the frame unacknowledged, and the write clears the new READY. -/
theorem acknowledgeRaceIsCounted : Obligations.AcknowledgeRaceIsCounted := by
  intro s hr
  obtain ⟨q, hq⟩ : ∃ q, exec .rdStatus s = .next q := ⟨_, rfl⟩
  obtain ⟨u, hu⟩ : ∃ u, exec .vsyncRise q = .next u := ⟨_, rfl⟩
  obtain ⟨t, ht⟩ : ∃ t, exec (.wrStatus 2) u = .next t := ⟨_, rfl⟩
  have hread : q.blk = s.blk := (exec_hostAnswer rfl hq).blk
  have hack : t.blk = hostBlk (.wrStatus 2) u.blk := (exec_hostAnswer rfl ht).blk
  have hmiss := execVsyncRise_handoffMissCount hu
  have hframe := execVsyncRise_frameCount hu
  have hactive := execVsyncRise_active hu
  simp only [hread, hr, if_true] at hmiss hframe hactive
  refine ⟨t, (execAll_cons hq).trans ((execAll_cons hu).trans (execAll_cons ht)), ?_⟩
  rw [hack]
  exact ⟨Bool.and_false _, hmiss, hframe, hactive⟩

end Sys2Proof.Proofs
end

section
/-! The encoding: a word decodes to what its format says, the selector map both ways, a sample with no edge that counts, and
what the statements of the script assemble to. -/

namespace Sys2Proof

/-! ## Decoding an encoded instruction (R53–R60) -/

/-- Every instruction that exists in a mode is read back from its word in that mode. -/
theorem decode_encode {m : RowAdvance} (i : Instr) (h : i.wf m = true) : decode m (encode i) = .ok i := by
  cases i with
  | sample s => exact Laws.RoundTrip.sample s m h
  | vsyncRise => exact Laws.RoundTrip.vsyncRise m h
  | hrefFall => exact Laws.RoundTrip.hrefFall m h
  | pclkRiseCount cur => exact Laws.RoundTrip.pclkRiseCount cur m h
  | pclkRiseHref cur => exact Laws.RoundTrip.pclkRiseHref cur m h
  | pclkRiseBlank cur => exact Laws.RoundTrip.pclkRiseBlank cur m h
  | rdCtrl => exact Laws.RoundTrip.rdCtrl m h
  | wrCtrl wdata => exact Laws.RoundTrip.wrCtrl wdata m h
  | rdStatus => exact Laws.RoundTrip.rdStatus m h
  | wrStatus wdata => exact Laws.RoundTrip.wrStatus wdata m h
  | rdCursor => exact Laws.RoundTrip.rdCursor m h
  | wrCursor wdata => exact Laws.RoundTrip.wrCursor wdata m h
  | rdOverrunCount => exact Laws.RoundTrip.rdOverrunCount m h
  | wrOverrunCount wdata => exact Laws.RoundTrip.wrOverrunCount wdata m h
  | rdHandoffMissCount => exact Laws.RoundTrip.rdHandoffMissCount m h
  | wrHandoffMissCount wdata => exact Laws.RoundTrip.wrHandoffMissCount wdata m h
  | rdFrameCount => exact Laws.RoundTrip.rdFrameCount m h
  | wrFrameCount wdata => exact Laws.RoundTrip.wrFrameCount wdata m h
  | rdGeometry => exact Laws.RoundTrip.rdGeometry m h
  | wrGeometry wdata => exact Laws.RoundTrip.wrGeometry wdata m h
  | rdConfig => exact Laws.RoundTrip.rdConfig m h
  | wrConfig wdata => exact Laws.RoundTrip.wrConfig wdata m h
  | rdPins => exact Laws.RoundTrip.rdPins m h
  | wrPins wdata => exact Laws.RoundTrip.wrPins wdata m h
  | pixelRead b r c => exact Laws.RoundTrip.pixelRead b r c m h
  | reset => exact Laws.RoundTrip.reset m h

/-! ## The sample vector (R53) -/

theorem encSample_eq (v h p : Bool) (d : Byte) :
    (encSample v h p d).toNat = v.toNat * 0x400 + h.toNat * 0x200 + p.toNat * 0x100 + d.toNat := by
  have hd : d.toNat < 2 ^ 8 := d.isLt
  have hp : (BitVec.ofBool p).toNat < 2 ^ 1 := (BitVec.ofBool p).isLt
  have hh : (BitVec.ofBool h).toNat < 2 ^ 1 := (BitVec.ofBool h).isLt
  rw [encSample, BitVec.toNat_append, BitVec.toNat_append, BitVec.toNat_append,
    ← Nat.shiftLeft_add_eq_or_of_lt hh, ← Nat.shiftLeft_add_eq_or_of_lt hp, ← Nat.shiftLeft_add_eq_or_of_lt hd]
  simp only [Nat.shiftLeft_eq, BitVec.toNat_ofBool]
  omega

theorem encSample_getLsbD (v h p : Bool) (d : Byte) (i : Nat) :
    (encSample v h p d).getLsbD i =
      if i < 8 then d.getLsbD i else if i - 8 < 1 then (BitVec.ofBool p).getLsbD (i - 8)
      else if i - 8 - 1 < 1 then (BitVec.ofBool h).getLsbD (i - 8 - 1)
      else (BitVec.ofBool v).getLsbD (i - 8 - 1 - 1) := by
  show BitVec.getLsbD (BitVec.ofBool v ++ BitVec.ofBool h ++ BitVec.ofBool p ++ d) i = _
  rw [BitVec.getLsbD_append, BitVec.getLsbD_append, BitVec.getLsbD_append]

@[simp] theorem vsyncLevel_encSample (v h p : Bool) (d : Byte) : vsyncLevel (encSample v h p d) = v := by
  rw [vsyncLevel, encSample_getLsbD]
  simp

@[simp] theorem hrefLevel_encSample (v h p : Bool) (d : Byte) : hrefLevel (encSample v h p d) = h := by
  rw [hrefLevel, encSample_getLsbD]
  simp

@[simp] theorem pclkLevel_encSample (v h p : Bool) (d : Byte) : pclkLevel (encSample v h p d) = p := by
  rw [pclkLevel, encSample_getLsbD]
  simp

@[simp] theorem pixelByte_encSample (v h p : Bool) (d : Byte) : pixelByte (encSample v h p d) = d := by
  apply BitVec.eq_of_getLsbD_eq
  intro i hi
  rw [pixelByte, BitVec.getLsbD_extractLsb', encSample_getLsbD]
  simp [hi]

end Sys2Proof

namespace Sys2Proof.Machine

/-! ## The selector map (R41, R55, R60, R85) -/

theorem readSel_toNat (r : Reg) : (readSel r).toNat = 0x4000 + r.offset.toNat := by cases r <;> rfl

theorem writeSel_toNat (r : Reg) : (writeSel r).toNat = 0xC000 + r.offset.toNat := by cases r <;> rfl

theorem decodeReg_readSel (r : Reg) (wdata : Word32) : decodeReg (readSel r) wdata = .ok r.readInstr := by
  cases r <;> rfl

theorem decodeReg_writeSel (r : Reg) (wdata : Word32) : decodeReg (writeSel r) wdata = .ok (r.writeInstr wdata) := by
  cases r <;> rfl

theorem offset_of_regAt {off : BitVec 8} {r : Reg} (h : regAt off = some r) : r.offset = off := by
  simpa using List.find?_some h

/-- R55: a selector as the sum of its four fields. -/
theorem sel_toNat (sel : BitVec 16) :
    sel.toNat = (selWrite sel).toNat * 0x8000 + (selSize sel).toNat * 0x2000 + (selReserved sel).toNat * 0x100 +
      (selOffset sel).toNat := by
  have hw : (selWrite sel).toNat = sel.toNat / 2 ^ 15 % 2 := by
    rw [selWrite, BitVec.getLsbD, Nat.toNat_testBit]
  have hlt := sel.isLt
  simp only [hw, selSize, selReserved, selOffset, BitVec.extractLsb'_toNat, Nat.shiftRight_eq_div_pow]
  omega

/-- A selector that passes R85's check has access size 2 and no reserved bit. -/
theorem sel_toNat_of_legal {sel : BitVec 16} (h : selIllegal sel = false) :
    sel.toNat = (if selWrite sel then 0xC000 else 0x4000) + (selOffset sel).toNat := by
  simp only [selIllegal, Bool.or_eq_false_iff, bne_eq_false_iff_eq] at h
  obtain ⟨⟨⟨hsize, hrsv⟩, -⟩, -⟩ := h
  rw [sel_toNat, hsize, hrsv]
  cases selWrite sel <;> rfl

/-- A legal selector at the offset of a register is the read or the write of that register. -/
theorem sel_of_legal {sel : BitVec 16} {r : Reg} (h : selIllegal sel = false) (hr : regAt (selOffset sel) = some r) :
    sel = readSel r ∨ sel = writeSel r := by
  have hsel := sel_toNat_of_legal h
  rw [← offset_of_regAt hr] at hsel
  cases hw : selWrite sel
  · exact .inl (BitVec.eq_of_toNat_eq (by simpa [hw, readSel_toNat] using hsel))
  · exact .inr (BitVec.eq_of_toNat_eq (by simpa [hw, writeSel_toNat] using hsel))

/-- R60, R85: a selector that reads no register and writes none is rejected. -/
theorem decodeReg_of_noRow {sel : BitVec 16} (wdata : Word32) (h : ∀ r, sel ≠ readSel r ∧ sel ≠ writeSel r) :
    decodeReg sel wdata = .error (.hostBusError sel) := by
  cases hill : selIllegal sel
  · cases hr : regAt (selOffset sel) with
    | none => simp [decodeReg, hill, hr]
    | some r => exact ((sel_of_legal hill hr).elim (h r).1 (h r).2).elim
  · simp [decodeReg, hill]

/-! ## A sample with no edge that counts (R66, R71) -/

/-- A primed sample none of whose events is both raised and enabled is only taken. -/
theorem execSample_uneventful {s : State} {cur : Sample} (hp : s.blk.primed = true)
    (hv : s.blk.ctrlVsyncEn = true → raises s.cfg.rowAdvance (formatT s.blk.prev cur) .vsyncRise = false)
    (hn : s.blk.ctrlPclkEn = true → ∀ e ≠ .vsyncRise,
      raises s.cfg.rowAdvance (formatT s.blk.prev cur) e = false) :
    execSample cur s = .next (takeSample cur s) := by
  have hvsync : (raises s.cfg.rowAdvance (formatT s.blk.prev cur) .vsyncRise && s.blk.ctrlVsyncEn) = false := by
    cases he : s.blk.ctrlVsyncEn
    · exact Bool.and_false _
    · rw [hv he, Bool.false_and]
  have hother (e : Event) (h : e ≠ .vsyncRise) :
      (raises s.cfg.rowAdvance (formatT s.blk.prev cur) e && s.blk.ctrlPclkEn) = false := by
    cases he : s.blk.ctrlPclkEn
    · exact Bool.and_false _
    · rw [hn he e h, Bool.false_and]
  simp [execSample, hp, hvsync, hother]

/-- With no P rise, and in HREF mode no H fall, no event that the PCLK enable gates is raised. -/
theorem raises_eq_false_of_quiet {m : RowAdvance} {prev cur : Sample} (hp : rise pclkLevel prev cur = false)
    (hh : m = .href → fall hrefLevel prev cur = false) :
    ∀ e ≠ .vsyncRise, raises m (formatT prev cur) e = false := by
  intro e he
  cases e with
  | vsyncRise => exact (he rfl).elim
  | hrefFall =>
    rw [raises_hrefFall]
    cases m with
    | count => rfl
    | href => rw [hh rfl, Bool.and_false]
  | pclkRiseCount => rw [raises_pclkRiseCount, hp, Bool.and_false]
  | pclkRiseHref => rw [raises_pclkRiseHref, hp, Bool.and_false, Bool.false_and]
  | pclkRiseBlank => rw [raises_pclkRiseBlank, hp, Bool.and_false, Bool.false_and]

theorem rise_eq_false_iff (level : Sample → Bool) (prev cur : Sample) :
    rise level prev cur = false ↔ (level prev = false → level cur = false) := by
  cases hp : level prev <;> simp [rise, hp]

theorem fall_eq_false_iff (level : Sample → Bool) (prev cur : Sample) :
    fall level prev cur = false ↔ (level prev = true → level cur = true) := by
  cases hp : level prev <;> simp [fall, hp]

/-- Taking a sample, once primed. -/
theorem takeSample_of_primed {s : State} (cur : Sample) (hp : s.blk.primed = true) :
    takeSample cur s = { s with blk := { s.blk with prev := cur } } := by
  rw [takeSample, State.setBlk, ← hp]

/-! ## The script's operands and statements (R64, R65) -/

@[simp] theorem field_toNat {n : Nat} (v : BitVec n) : field n v.toNat = some v := by
  simp [field, v.isLt]

@[simp] theorem field_eq_none {n v : Nat} : field n v = none ↔ 2 ^ n ≤ v := by
  simp [field]

section
variable (h : Held) {n m k : Nat}

theorem assemble_sample_eq_none : (Stmt.sample n).assemble h = none ↔ 2 ^ 11 ≤ n := by
  simp [Stmt.assemble]

theorem assemble_wr_eq_none (r : Reg) : (Stmt.wr r n).assemble h = none ↔ 2 ^ 32 ≤ n := by
  simp [Stmt.assemble]

theorem assemble_pclk_eq_none : (Stmt.pclk n).assemble h = none ↔ 2 ^ 8 ≤ n := by
  simp [Stmt.assemble]

theorem assemble_host_eq_none : (Stmt.host n m).assemble h = none ↔ 2 ^ 16 ≤ n ∨ 2 ^ 32 ≤ m := by
  rw [← field_eq_none, ← field_eq_none]
  simp only [Stmt.assemble]
  cases field 16 n with
  | none => simp
  | some sel => cases field 32 m <;> simp

theorem assemble_pix_eq_none :
    (Stmt.pix n m k).assemble h = none ↔ 2 ^ 1 ≤ n ∨ 2 ^ 16 ≤ m ∨ 2 ^ 16 ≤ k := by
  rw [← field_eq_none, ← field_eq_none, ← field_eq_none]
  simp only [Stmt.assemble]
  cases field 1 n with
  | none => simp
  | some b =>
    cases field 16 m with
    | none => simp
    | some row => cases field 16 k <;> simp

end

end Sys2Proof.Machine

namespace Sys2Proof.Proofs

open Sys2Proof.Machine

/-- Settles O1: by the instruction. -/
theorem decodeOfEncodeIsTheInstr : Obligations.DecodeOfEncodeIsTheInstr :=
  fun _ => decode_encode

/-- Settles O3: the eighteen rows are the read and the write of each register, and a word outside them is no row's. -/
theorem registerPortMap : Obligations.RegisterPortMap := by
  intro m wdata
  have read (r : Reg) : decode m (.H (readSel r) wdata) = .ok r.readInstr := decodeReg_readSel r wdata
  have write (r : Reg) : decode m (.H (writeSel r) wdata) = .ok (r.writeInstr wdata) := decodeReg_writeSel r wdata
  refine ⟨read .ctrl, write .ctrl, read .status, write .status, read .cursor, write .cursor, read .overrunCount,
    write .overrunCount, read .handoffMissCount, write .handoffMissCount, read .frameCount, write .frameCount,
    read .geometry, write .geometry, read .config, write .config, read .pins, write .pins, fun sel hsel => ?_⟩
  refine decodeReg_of_noRow wdata fun r => ⟨fun hr => hsel ?_, fun hr => hsel ?_⟩
  · rw [hr]; cases r <;> decide
  · rw [hr]; cases r <;> decide

/-- Settles O10: the levels rule out every event that is enabled, so the sample is only taken. -/
theorem uneventfulSampleOnlyUpdatesPrev : Obligations.UneventfulSampleOnlyUpdatesPrev := by
  intro s v hp hv hn
  rw [← takeSample_of_primed v hp]
  refine execSample_uneventful hp (fun he => ?_) (fun he => ?_)
  · rw [raises_vsyncRise]
    exact (rise_eq_false_iff ..).mpr (hv he)
  · obtain ⟨hpclk, hhref⟩ := hn he
    exact raises_eq_false_of_quiet ((rise_eq_false_iff ..).mpr hpclk) fun hm => (fall_eq_false_iff ..).mpr (hhref hm)

/-- Settles O2: seven of the words are their instruction's encoding; the words of the PCLK events have a history sample
of 0, which is not the encoder's, and the decoder is evaluated on them. -/
theorem specWordsDecode : Obligations.SpecWordsDecode :=
  ⟨decode_encode (.sample 0x1A5) rfl, decode_encode .vsyncRise rfl, decode_encode .hrefFall rfl, rfl, rfl, rfl,
    decode_encode .rdStatus rfl, decode_encode (.wrCtrl 7) rfl, decode_encode (.pixelRead 1 2 3) rfl,
    decode_encode .reset rfl⟩

/-- Settles O53: an operand that fits is its field's value, and a statement is rejected exactly where one does not fit. -/
theorem baseStatementsAssemble : Obligations.BaseStatementsAssemble := by
  intro h v sel w b r c reg n m k
  refine ⟨?sample, ?host, ⟨readSel reg, rfl, readSel_toNat reg⟩, ⟨writeSel reg, ?wr, writeSel_toNat reg⟩, ?pix, rfl,
    (assemble_sample_eq_none h).mpr, (assemble_wr_eq_none h reg).mpr, (assemble_host_eq_none h).mpr,
    (assemble_pix_eq_none h).mpr, (assemble_pclk_eq_none h).mpr⟩
  all_goals simp [Stmt.assemble]

/-- Settles O54: R53's fields of `enc`, and each expansion with the held values as they stand. -/
theorem pseudoStatementsExpand : Obligations.PseudoStatementsExpand := by
  refine ⟨fun v h p d => ⟨encSample_eq v h p d, vsyncLevel_encSample v h p d, hrefLevel_encSample v h p d,
    pclkLevel_encSample v h p d, pixelByte_encSample v h p d⟩, fun _ => rfl, fun hh dh d => ?_⟩
  refine ⟨?pclk, rfl, rfl, rfl, rfl, rfl, rfl, rfl, rfl⟩
  simp [Stmt.assemble]

end Sys2Proof.Proofs
end

section
/-! The sample step of R66 as a run of its enabled events, and what it does where edges coincide (R68); the edges of R67
and the byte of R69. -/

namespace Sys2Proof

/-! ## Edges (R67) -/

theorem rise_iff (level : Sample → Bool) (prev cur : Sample) :
    rise level prev cur = true ↔ level prev = false ∧ level cur = true := by
  simp [rise]

theorem fall_iff (level : Sample → Bool) (prev cur : Sample) :
    fall level prev cur = true ↔ level prev = true ∧ level cur = false := by
  simp [fall]

theorem not_rise_iff (level : Sample → Bool) (prev cur : Sample) :
    rise level prev cur = false ↔ ¬ (level prev = false ∧ level cur = true) :=
  Bool.eq_false_iff.trans (rise_iff level prev cur).not

end Sys2Proof

namespace Sys2Proof.Machine

/-! ## The events that a sample runs, as instructions (R66) -/

/-- The events of a sample that are raised and enabled, in the order of R68. -/
def enabledEvents (s : State) (cur : Sample) : List Instr :=
  (decodeEvents s.cfg.rowAdvance (formatT s.blk.prev cur)).filter (eventEnabled s)

/-- An instruction that runs where its guard holds, as a list. -/
def guarded (c : Bool) (i : Instr) : List Instr := if c then [i] else []

@[simp] theorem guarded_true (i : Instr) : guarded true i = [i] := rfl

@[simp] theorem guarded_false (i : Instr) : guarded false i = [] := rfl

theorem filter_map_filter_cons (raised : Event → Bool) (enabled : Instr → Bool) (f : Event → Instr) (e : Event)
    (es : List Event) :
    (((e :: es).filter raised).map f).filter enabled =
      guarded (raised e && enabled (f e)) (f e) ++ ((es.filter raised).map f).filter enabled := by
  cases hr : raised e
  · simp [hr]
  · cases he : enabled (f e) <;> simp [hr, he]

/-- R66, R67: in R68's order, each event runs where its edge is there and its enable is 1. -/
theorem enabledEvents_eq (s : State) (cur : Sample) :
    enabledEvents s cur =
      guarded (rise vsyncLevel s.blk.prev cur && s.blk.ctrlVsyncEn) .vsyncRise ++
      (guarded (s.cfg.rowAdvance == .href && fall hrefLevel s.blk.prev cur && s.blk.ctrlPclkEn) .hrefFall ++
      (guarded (s.cfg.rowAdvance == .count && rise pclkLevel s.blk.prev cur && s.blk.ctrlPclkEn) (.pclkRiseCount cur) ++
      (guarded (s.cfg.rowAdvance == .href && rise pclkLevel s.blk.prev cur && hrefLevel cur && s.blk.ctrlPclkEn)
        (.pclkRiseHref cur) ++
      guarded (s.cfg.rowAdvance == .href && rise pclkLevel s.blk.prev cur && !hrefLevel cur && s.blk.ctrlPclkEn)
        (.pclkRiseBlank cur)))) := by
  simp only [enabledEvents, decodeEvents, events, curOf_formatT, filter_map_filter_cons, List.filter_nil, List.map_nil,
    List.append_nil, raises_vsyncRise, raises_hrefFall, raises_pclkRiseCount, raises_pclkRiseHref, raises_pclkRiseBlank]
  rfl

theorem execAll_append (is js : List Instr) (s : State) :
    execAll (is ++ js) s = andThen (execAll is s) (execAll js) := by
  induction is generalizing s with
  | nil => rfl
  | cons i is ih =>
    rw [List.cons_append, execAll, execAll, andThen_assoc]
    exact congrArg (andThen (exec i s)) (funext ih)

theorem execAll_singleton (i : Instr) (s : State) : execAll [i] s = exec i s := by
  cases h : exec i s <;> simp [execAll, h, andThen]

theorem execAll_guarded (c : Bool) (i : Instr) (s : State) :
    execAll (guarded c i) s = runIf c (exec i) s := by
  cases c
  · rfl
  · exact execAll_singleton i s

/-- A property that every instruction of a list keeps is kept by the list. -/
theorem execAll_keeps {P : State → Prop} {is : List Instr} {s t : State} (h : execAll is s = .next t) (hs : P s)
    (hi : ∀ i ∈ is, ∀ a b, P a → exec i a = .next b → P b) : P t := by
  induction is generalizing s with
  | nil => exact Host.Outcome.next.inj h ▸ hs
  | cons i is ih =>
    obtain ⟨u, hu, ht⟩ := andThen_eq_next.mp h
    exact ih ht (hi i List.mem_cons_self s u hs hu) fun j hj => hi j (List.mem_cons_of_mem i hj)

theorem exec_event_frame (e : Event) {cur : Sample} {s t : State} (h : exec (e.toInstr cur) s = .next t) :
    EventFrame s t := by
  cases e with
  | vsyncRise => exact execVsyncRise_frame h
  | hrefFall => exact execHrefFall_frame h
  | pclkRiseCount => exact execPclkRiseCount_frame h
  | pclkRiseHref => exact execPclkRiseHref_frame h
  | pclkRiseBlank => exact execPclkRiseBlank_frame (cur := cur) h

/-- The events of a sample leave the enables, the detector's history and the configuration alone. -/
theorem execAll_enabledEvents_frame {cur : Sample} {s t u : State} (h : execAll (enabledEvents s cur) t = .next u) :
    EventFrame t u := by
  refine execAll_keeps h (.refl t) fun i hi a b ha hb => ?_
  obtain ⟨e, -, rfl⟩ := List.mem_map.mp (List.mem_of_mem_filter hi)
  exact ha.trans (exec_event_frame e hb)

theorem andThen_congr {r : Result} {f g : State → Result} (h : ∀ t, r = .next t → f t = g t) :
    andThen r f = andThen r g := by
  cases r with
  | next t => exact h t rfl
  | fault => rfl
  | refused => rfl

/-- R66: once primed, a sample runs its enabled events, which leave it primed, and becomes `prev`. -/
theorem execSample_of_primed {s : State} (cur : Sample) (hp : s.blk.primed = true) :
    execSample cur s =
      andThen (execAll (enabledEvents s cur) s) fun t => .next { t with blk := { t.blk with prev := cur } } := by
  have hrun : execSample cur s = andThen (execAll (enabledEvents s cur) s) fun t => .next (takeSample cur t) := by
    simp only [enabledEvents_eq, execAll_append, execAll_guarded, andThen_assoc, execSample, hp, Bool.not_true,
      Bool.false_eq_true, if_false, raises_vsyncRise, raises_hrefFall, raises_pclkRiseCount, raises_pclkRiseHref,
      raises_pclkRiseBlank]
    rfl
  refine hrun.trans (andThen_congr fun t ht => ?_)
  rw [takeSample_of_primed cur ((execAll_enabledEvents_frame ht).primed.trans hp)]

theorem execSample_of_events {s t : State} {cur : Sample} (hp : s.blk.primed = true)
    (h : execAll (enabledEvents s cur) s = .next t) :
    execSample cur s = .next { t with blk := { t.blk with prev := cur } } := by
  rw [execSample_of_primed cur hp, h, andThen_next]

/-! ## Where an event answers -/

theorem rowDone_eq_false {s : State} : rowDone s = false ↔ s.blk.row.toNat < s.cfg.rows := by simp [rowDone]

theorem colDone_eq_false {s : State} : colDone s = false ↔ s.blk.col.toNat < s.cfg.cols := by simp [colDone]

/-- R74 at a cursor that names a cell. -/
theorem execPclkRiseCount_inSpace {cur : Sample} {s : State} (h : inSpace s.cfg s.blk.row s.blk.col = true) :
    execPclkRiseCount cur s = .next (advanceByCount ((s.record (.event .pclkRiseCount)).setBlk { s.blk with
      fb := s.blk.fb.write (cellKey s.blk.active s.blk.row s.blk.col) (pixelByte cur) })) :=
  (execPclkRiseCount_open (rowDone_eq_false.mpr ((inSpace_iff ..).mp h).1)).trans (writePixel_inSpace h)

/-- R75 at a cursor that names a cell. -/
theorem execPclkRiseHref_inSpace {cur : Sample} {s : State} (h : inSpace s.cfg s.blk.row s.blk.col = true) :
    execPclkRiseHref cur s = .next (advanceCol ((s.record (.event .pclkRiseHref)).setBlk { s.blk with
      fb := s.blk.fb.write (cellKey s.blk.active s.blk.row s.blk.col) (pixelByte cur) })) :=
  have ⟨hr, hc⟩ := (inSpace_iff ..).mp h
  (execPclkRiseHref_open (rowDone_eq_false.mpr hr) (colDone_eq_false.mpr hc)).trans (writePixel_inSpace h)

theorem execHrefFall_answers (s : State) : ∃ t, execHrefFall s = .next t := by
  cases hr : rowDone s
  · exact ⟨_, execHrefFall_open hr⟩
  · exact ⟨_, execHrefFall_clamped hr⟩

/-- R22: in COUNT mode the column is always inside, so the pixel is counted or written. -/
theorem execPclkRiseCount_answers (cur : Sample) {s : State} (hc : s.blk.col.toNat < s.cfg.cols) :
    ∃ t, execPclkRiseCount cur s = .next t := by
  cases hr : rowDone s
  · exact ⟨_, execPclkRiseCount_inSpace ((inSpace_iff ..).mpr ⟨rowDone_eq_false.mp hr, hc⟩)⟩
  · exact ⟨_, execPclkRiseCount_clamped hr⟩

theorem execPclkRiseHref_answers (cur : Sample) (s : State) : ∃ t, execPclkRiseHref cur s = .next t := by
  cases hr : rowDone s
  · cases hc : colDone s
    · exact ⟨_, execPclkRiseHref_inSpace ((inSpace_iff ..).mpr ⟨rowDone_eq_false.mp hr, colDone_eq_false.mp hc⟩)⟩
    · exact ⟨_, execPclkRiseHref_full hr hc⟩
  · exact ⟨_, execPclkRiseHref_clamped hr⟩

/-- R22, R80: from a state that meets the invariant no event of a sample stops. -/
theorem Inv.sample_answers {s : State} (h : Inv s) (cur : Sample) : ∃ t, execSample cur s = .next t := by
  have mode {e : Event} {a : State} {w : BitVec 22} (hc : a.cfg = s.cfg) (hr : raises s.cfg.rowAdvance w e = true) :
      e.inMode a.cfg.rowAdvance = true := hc ▸ raises_inMode hr
  refine execSample_answers (P := fun a => Inv a ∧ a.cfg = s.cfg) ⟨h, rfl⟩ ?vsync ?hrefFall ?count ?href ?blank
  case vsync =>
    intro _ a ⟨ha, hc⟩
    have hx : execVsyncRise a = .next _ := rfl
    exact ⟨_, hx, ha.vsyncRise hx, hc ▸ (execVsyncRise_frame hx).cfg⟩
  case hrefFall =>
    intro hr a ⟨ha, hc⟩
    obtain ⟨b, hx⟩ := execHrefFall_answers a
    exact ⟨b, hx, ha.hrefFall (eq_of_beq (mode hc hr)) hx, hc ▸ (execHrefFall_frame hx).cfg⟩
  case count =>
    intro hr a ⟨ha, hc⟩
    have hm : a.cfg.rowAdvance = .count := eq_of_beq (mode hc hr)
    obtain ⟨b, hx⟩ := execPclkRiseCount_answers cur (ha.count_col hm)
    exact ⟨b, hx, ha.pclkRiseCount hm hx, hc ▸ (execPclkRiseCount_frame hx).cfg⟩
  case href =>
    intro hr a ⟨ha, hc⟩
    obtain ⟨b, hx⟩ := execPclkRiseHref_answers cur a
    exact ⟨b, hx, ha.pclkRiseHref (eq_of_beq (mode hc hr)) hx, hc ▸ (execPclkRiseHref_frame hx).cfg⟩
  case blank =>
    intro a ⟨ha, hc⟩
    have hx : execPclkRiseBlank cur a = .next _ := rfl
    exact ⟨_, hx, ha.pclkRiseBlank hx, hc ▸ (execPclkRiseBlank_frame hx).cfg⟩

/-! ## The events of coinciding edges (R68) -/

/-- The pixel event of a mode: PCLK_RISE_COUNT, or PCLK_RISE_HREF where the sample's HREF is high. -/
def pixelEvent : RowAdvance → Event
  | .count => .pclkRiseCount
  | .href => .pclkRiseHref

@[simp] theorem href_beq_count : (RowAdvance.href == RowAdvance.count) = false := rfl

section
variable {s : State} {cur : Sample}

/-- V and P rise together, with HREF high in HREF mode: the frame starts before the pixel. -/
theorem enabledEvents_pixelOnVsync (hv : s.blk.ctrlVsyncEn = true) (hp : s.blk.ctrlPclkEn = true)
    (hh : s.cfg.rowAdvance = .href → hrefLevel cur = true) (hvr : rise vsyncLevel s.blk.prev cur = true)
    (hpr : rise pclkLevel s.blk.prev cur = true) :
    enabledEvents s cur = [.vsyncRise, (pixelEvent s.cfg.rowAdvance).toInstr cur] := by
  simp only [enabledEvents_eq, hv, hp, hvr, hpr]
  cases hm : s.cfg.rowAdvance with
  | count => rfl
  | href => simp [fall, hh hm, pixelEvent, Event.toInstr]

/-- In HREF mode H falls as P rises: the row ends, and the pixel is a blanking edge. -/
theorem enabledEvents_pclkOnHrefFall (hm : s.cfg.rowAdvance = .href) (hp : s.blk.ctrlPclkEn = true)
    (hvr : rise vsyncLevel s.blk.prev cur = false) (hhf : fall hrefLevel s.blk.prev cur = true)
    (hpr : rise pclkLevel s.blk.prev cur = true) :
    enabledEvents s cur = [.hrefFall, .pclkRiseBlank cur] := by
  have hlow : hrefLevel cur = false := ((fall_iff ..).mp hhf).2
  simp [enabledEvents_eq, hm, hp, hvr, hhf, hpr, hlow]

/-- In HREF mode P rises where H is high: a pixel, and no other event. -/
theorem enabledEvents_pclkInRow (hm : s.cfg.rowAdvance = .href) (hp : s.blk.ctrlPclkEn = true)
    (hvr : rise vsyncLevel s.blk.prev cur = false) (hhigh : hrefLevel cur = true)
    (hpr : rise pclkLevel s.blk.prev cur = true) :
    enabledEvents s cur = [.pclkRiseHref cur] := by
  simp [enabledEvents_eq, fall, hm, hp, hvr, hpr, hhigh]

end

/-! ## The first pixel of a frame (R68, R74, R75, R81) -/

theorem execVsyncRise_cursor {s t : State} (h : execVsyncRise s = .next t) : t.blk.row = 0 ∧ t.blk.col = 0 := by
  rcases execVsyncRise_cases h with ⟨-, rfl⟩ | ⟨-, rfl⟩ <;> exact ⟨rfl, rfl⟩

theorem execVsyncRise_fb {s t : State} (h : execVsyncRise s = .next t) : t.blk.fb = s.blk.fb := by
  rcases execVsyncRise_cases h with ⟨-, rfl⟩ | ⟨-, rfl⟩ <;> rfl

theorem inSpace_origin {cfg : Config} (h : cfg.valid = true) : inSpace cfg 0 0 = true := by
  obtain ⟨hr, -, hc, -⟩ := (configValid_iff cfg).mp h
  exact (inSpace_iff ..).mpr ⟨hr, hc⟩

/-- A pixel at the cursor (0, 0) is written there, and the cursor goes to the next cell, in COUNT mode with one column to
the next row. -/
theorem exec_pixelEvent_origin {s : State} (cur : Sample) (hv : s.cfg.valid = true) (hr : s.blk.row = 0)
    (hc : s.blk.col = 0) :
    ∃ t, exec ((pixelEvent s.cfg.rowAdvance).toInstr cur) s = .next t ∧
      t.blk = { s.blk with
        fb := s.blk.fb.write (cellKey s.blk.active 0 0) (pixelByte cur)
        row := if s.cfg.rowAdvance = .count ∧ s.cfg.cols = 1 then 1 else 0
        col := if s.cfg.rowAdvance = .count ∧ s.cfg.cols = 1 then 0 else 1 } := by
  have hin : inSpace s.cfg s.blk.row s.blk.col = true := by
    rw [hr, hc]
    exact inSpace_origin hv
  cases hm : s.cfg.rowAdvance with
  | count =>
    refine ⟨_, execPclkRiseCount_inSpace hin, ?_⟩
    by_cases hone : s.cfg.cols = 1
    · simp [advanceByCount, colLast, hr, hc, hone]
    · simp [advanceByCount, colLast, hr, hc, hone, Ne.symm hone]
  | href =>
    refine ⟨_, execPclkRiseHref_inSpace hin, ?_⟩
    simp [advanceCol, hr, hc]

/-! ## The end of a row (R82) -/

/-- The whole of HREF_FALL below the clamp. -/
theorem execHrefFall_unclamped {s : State} (h : s.blk.row.toNat < s.cfg.rows) :
    execHrefFall s = .next { s with
      blk := { s.blk with
        row := s.blk.row + 1
        col := 0
        rowLenErr := s.blk.rowLenErr || s.blk.col.toNat != s.cfg.cols }
      history := s.history ++ .event .hrefFall ::
        (if s.blk.col.toNat = s.cfg.cols then [] else [.condition (.rowLengthMismatch s.blk.row s.blk.col)]) } := by
  rw [execHrefFall_open (rowDone_eq_false.mpr h)]
  by_cases hc : s.blk.col.toNat = s.cfg.cols
  · simp [hc, advanceRow, State.setBlk, State.record]
  · simp [hc, advanceRow, rowLengthMismatch, State.raise, State.setBlk, State.record]

/-! ## Bytes (R69) -/

/-- R69: the lines of a byte from the highest to the lowest. -/
theorem assemble_bits (d7 d6 d5 d4 d3 d2 d1 d0 : Bool) :
    let v := assemble d7 d6 d5 d4 d3 d2 d1 d0
    v.getLsbD 7 = d7 ∧ v.getLsbD 6 = d6 ∧ v.getLsbD 5 = d5 ∧ v.getLsbD 4 = d4 ∧
    v.getLsbD 3 = d3 ∧ v.getLsbD 2 = d2 ∧ v.getLsbD 1 = d1 ∧ v.getLsbD 0 = d0 := by
  simp only [assemble, BitVec.getLsbD_append, BitVec.getLsbD_ofBool]
  simp

end Sys2Proof.Machine

namespace Sys2Proof.Proofs

open Sys2Proof.Machine

/-- Settles O4: each row of the event map is its edge. -/
theorem eventsAreTheEdges : Obligations.EventsAreTheEdges := by
  intro m prev cur
  simp only [mem_events, raises_vsyncRise, raises_hrefFall, raises_pclkRiseCount, raises_pclkRiseHref,
    raises_pclkRiseBlank, Bool.and_eq_true, beq_iff_eq, rise_iff, fall_iff, Bool.not_eq_true', and_assoc]
  exact ⟨.rfl, .rfl, .rfl, .rfl, .rfl⟩

/-- Settles O9: an unprimed sample is only taken, and a primed one runs its enabled events first. -/
theorem sampleRunsEnabledEvents : Obligations.SampleRunsEnabledEvents := by
  refine fun s v => ⟨fun hp => ?unprimed, execSample_of_primed v⟩
  show execSample v s = .next (takeSample v s)
  simp only [execSample, hp, Bool.not_false, if_true]

/-- Settles O11: under the invariant no event stops, and none writes what the sample step keeps. -/
theorem sampleCompletes : Obligations.SampleCompletes := by
  intro s v h
  obtain ⟨t, ht⟩ := h.sample_answers v
  have e := execSample_frame ht
  exact ⟨t, ht, e.prev, e.primed, e.ctrlPclkEn, e.ctrlVsyncEn, e.ctrlIrqEn, e.cfg, e.powerOnIndex, e.pending,
    e.response⟩

/-- Settles O12: the sample runs VSYNC_RISE, which puts the cursor at (0, 0), and then the mode's pixel event. -/
theorem coincidingPixelGoesToNewFrame : Obligations.CoincidingPixelGoesToNewFrame := by
  intro s v hvalid hprimed hvsync hpclk hhref hv0 hv1 hp0 hp1
  have hevents := enabledEvents_pixelOnVsync hvsync hpclk hhref ((rise_iff ..).mpr ⟨hv0, hv1⟩)
    ((rise_iff ..).mpr ⟨hp0, hp1⟩)
  obtain ⟨u, hu⟩ : ∃ u, exec .vsyncRise s = .next u := ⟨_, rfl⟩
  obtain ⟨hrow, hcol⟩ := execVsyncRise_cursor hu
  have hcfg := (execVsyncRise_frame hu).cfg
  obtain ⟨t, ht, hblk⟩ := exec_pixelEvent_origin v (hcfg ▸ hvalid) hrow hcol
  rw [hcfg] at ht hblk
  have hrun : execAll (enabledEvents s v) s = .next t := by
    rw [hevents, execAll_cons hu, execAll_singleton, ht]
  have hfb : t.blk.fb = s.blk.fb.write (cellKey (1 - s.blk.active) 0 0) (pixelByte v) := by
    rw [hblk, execVsyncRise_fb hu, execVsyncRise_active hu]
  refine ⟨_, execSample_of_events hprimed hrun, ?_, ?_, fun b r c hne => ?_, ?_⟩
  · exact (congrArg Block.active hblk).trans (execVsyncRise_active hu)
  · show t.blk.fb.read _ = _
    rw [hfb]
    exact bufRead_write_same s ..
  · show t.blk.fb.read _ = _
    rw [hfb]
    exact read_write_otherCell _ _ hne
  · show t.blk.row = _ ∧ t.blk.col = _ ∧ t.blk.ready = _ ∧ t.blk.frameCount = _ ∧ t.blk.overrunCount = _ ∧
      t.blk.rowLenErr = _
    rw [hblk]
    exact ⟨rfl, rfl, execVsyncRise_ready hu, execVsyncRise_frameCount hu, execVsyncRise_overrunCount hu,
      execVsyncRise_rowLenErr hu⟩

/-- Settles O13: the sample runs HREF_FALL and then PCLK_RISE_BLANK. -/
theorem coincidingHrefFallEndsRowFirst : Obligations.CoincidingHrefFallEndsRowFirst := by
  intro s v hm hprimed hpclk hnv hh0 hh1 hp0 hp1 hrow
  have hevents := enabledEvents_pclkOnHrefFall hm hpclk ((not_rise_iff ..).mpr hnv) ((fall_iff ..).mpr ⟨hh0, hh1⟩)
    ((rise_iff ..).mpr ⟨hp0, hp1⟩)
  have hend : exec .hrefFall s = .next _ := execHrefFall_unclamped hrow
  have hrun := (execAll_cons (is := [.pclkRiseBlank v]) hend).trans (execAll_singleton ..)
  rw [← hevents] at hrun
  exact ⟨_, execSample_of_events hprimed hrun, rfl, rfl⟩

/-- Settles O14: the sample's one event is the pixel, at a cursor that names a cell. -/
theorem coincidingHrefRiseWritesPixel : Obligations.CoincidingHrefRiseWritesPixel := by
  intro s v hm hprimed hpclk hnv _ hh1 hp0 hp1 hrow hcol
  have hevents := enabledEvents_pclkInRow hm hpclk ((not_rise_iff ..).mpr hnv) hh1 ((rise_iff ..).mpr ⟨hp0, hp1⟩)
  have hrun : execAll (enabledEvents s v) s = execPclkRiseHref v s := by
    rw [hevents, execAll_singleton]
    rfl
  exact execSample_of_events hprimed (hrun.trans (execPclkRiseHref_inSpace ((inSpace_iff ..).mpr ⟨hrow, hcol⟩)))

/-- Settles O5: the bits of a sample's byte are those of its assembled lines, line by line. -/
theorem assembledByteBits : Obligations.AssembledByteBits := by
  refine ⟨assemble_bits, fun cur => BitVec.eq_of_getLsbD_eq fun i hi => ?_⟩
  obtain ⟨h7, h6, h5, h4, h3, h2, h1, h0⟩ := assemble_bits (cur.getLsbD 7) (cur.getLsbD 6) (cur.getLsbD 5)
    (cur.getLsbD 4) (cur.getLsbD 3) (cur.getLsbD 2) (cur.getLsbD 1) (cur.getLsbD 0)
  rw [pixelByte, BitVec.getLsbD_extractLsb']
  interval_cases i
  exacts [h0.symm, h1.symm, h2.symm, h3.symm, h4.symm, h5.symm, h6.symm, h7.symm]

end Sys2Proof.Proofs
end

section
/-! The pixel events: the whole next state of each (R74–R76), their frame (R77, R80), and a whole frame in either mode
(R78, R79). -/

namespace Sys2Proof.Machine

/-! ## The next states, written out (R74, R75) -/

/-- R108, code 1, after an event's record. -/
theorem captureOverrun_record (s : State) (r : Record) :
    captureOverrun (s.record r) = { s with
      blk := { s.blk with overrunCount := sat32 (s.blk.overrunCount.toNat + 1) }
      history := s.history ++ [r, .condition (.captureOverrun s.blk.row s.blk.col)] } := by
  simp [captureOverrun, State.raise, State.record, State.setBlk]

theorem advanceByCount_eq (s : State) :
    advanceByCount s = s.setBlk { s.blk with
      row := if s.blk.col.toNat + 1 = s.cfg.cols then s.blk.row + 1 else s.blk.row
      col := if s.blk.col.toNat + 1 = s.cfg.cols then 0 else s.blk.col + 1 } := by
  by_cases hl : s.blk.col.toNat + 1 = s.cfg.cols <;> simp [advanceByCount, colLast, hl]

/-! ## The frame of the pixel events (R77, R80) -/

/-- No cell but the one at the cursor in the active buffer changes, and none where the cursor is outside the frame. -/
def OnlyCursorCell (s t : State) : Prop :=
  ∀ (b : BitVec 1) (r c : Half),
    (s.blk.row.toNat < s.cfg.rows → s.blk.col.toNat < s.cfg.cols → (b, r, c) ≠ (s.blk.active, s.blk.row, s.blk.col)) →
    bufRead t b r c = bufRead s b r c

theorem onlyCursorCell_of_fb {s t : State} (h : t.blk.fb = s.blk.fb) : OnlyCursorCell s t :=
  fun _ _ _ _ => by rw [bufRead, h, bufRead]

theorem onlyCursorCell_of_write {s t : State} {v : Byte} (hin : inSpace s.cfg s.blk.row s.blk.col = true)
    (h : t.blk.fb = s.blk.fb.write (cellKey s.blk.active s.blk.row s.blk.col) v) : OnlyCursorCell s t := by
  intro b r c hne
  obtain ⟨hrow, hcol⟩ := (inSpace_iff ..).mp hin
  rw [bufRead, h, bufRead]
  exact read_write_otherCell _ _ fun ⟨hb, hr, hc⟩ => hne hrow hcol (by rw [hb, hr, hc])

section
variable {cur : Sample} {s t : State}

theorem execPclkRiseCount_onlyCursorCell (h : execPclkRiseCount cur s = .next t) : OnlyCursorCell s t := by
  rcases execPclkRiseCount_cases h with ⟨-, rfl⟩ | ⟨-, hin, rfl⟩
  · exact onlyCursorCell_of_fb rfl
  · exact onlyCursorCell_of_write hin (by rw [advanceByCount_eq]; rfl)

theorem execPclkRiseHref_onlyCursorCell (h : execPclkRiseHref cur s = .next t) : OnlyCursorCell s t := by
  rcases execPclkRiseHref_cases h with ⟨-, rfl⟩ | ⟨-, -, rfl⟩ | ⟨-, -, hin, rfl⟩
  · exact onlyCursorCell_of_fb rfl
  · exact onlyCursorCell_of_fb rfl
  · exact onlyCursorCell_of_write hin rfl

theorem execPclkRiseHref_row (h : execPclkRiseHref cur s = .next t) : t.blk.row = s.blk.row := by
  rcases execPclkRiseHref_cases h with ⟨-, rfl⟩ | ⟨-, -, rfl⟩ | ⟨-, -, -, rfl⟩ <;> rfl

end

end Sys2Proof.Machine

namespace Sys2Proof.Proofs

open Sys2Proof.Machine

/-- Settles O15: by whether the frame is complete, and the advance by whether the column is the last. -/
theorem pclkRiseCountResult : Obligations.PclkRiseCountResult := by
  refine fun s cur => ⟨fun hrow => ?clamped, fun hrow hcol => ?write⟩
  case clamped =>
    exact (execPclkRiseCount_clamped ((rowDone_iff s).mpr hrow)).trans (congrArg _ (captureOverrun_record ..))
  case write =>
    exact (execPclkRiseCount_inSpace ((inSpace_iff ..).mpr ⟨hrow, hcol⟩)).trans (congrArg _ (advanceByCount_eq _))

/-- Settles O17: by whether the frame is complete, and then by whether the row is full. -/
theorem pclkRiseHrefResult : Obligations.PclkRiseHrefResult := by
  refine fun s cur => ⟨fun hrow => ?clamped, fun hrow hcol => ?full, fun hrow hcol => ?write⟩
  case clamped =>
    exact (execPclkRiseHref_clamped ((rowDone_iff s).mpr hrow)).trans (congrArg _ (captureOverrun_record ..))
  case full =>
    refine (execPclkRiseHref_full (rowDone_eq_false.mpr hrow) ((colDone_iff s).mpr hcol)).trans ?_
    rw [captureOverrun_record]
    simp [rowLengthMismatch, State.raise, State.record, State.setBlk, sat32]
  case write => exact execPclkRiseHref_inSpace ((inSpace_iff ..).mpr ⟨hrow, hcol⟩)

/-- Settles O18: R76 is `skip`, beside the record of the event. -/
theorem pclkRiseBlankResult : Obligations.PclkRiseBlankResult := fun _ _ => rfl

/-- Settles O19: event by event, from what no event writes, what only VSYNC_RISE writes, and the cell at the cursor. -/
theorem pixelEventFrame : Obligations.PixelEventFrame := by
  intro i cur s t hi h
  obtain ⟨e, n, hrow, hflag, hcell⟩ : EventFrame s t ∧ NoVsync s t ∧
      (i ≠ .pclkRiseCount cur → t.blk.row = s.blk.row) ∧
      (i ≠ .pclkRiseHref cur → t.blk.rowLenErr = s.blk.rowLenErr) ∧ OnlyCursorCell s t := by
    simp only [List.mem_cons, List.not_mem_nil, or_false] at hi
    rcases hi with rfl | rfl | rfl
    · exact ⟨execPclkRiseCount_frame h, execPclkRiseCount_noVsync h, fun hne => absurd rfl hne,
        fun _ => execPclkRiseCount_rowLenErr h, execPclkRiseCount_onlyCursorCell h⟩
    · exact ⟨execPclkRiseHref_frame h, execPclkRiseHref_noVsync h, fun _ => execPclkRiseHref_row h,
        fun hne => absurd rfl hne, execPclkRiseHref_onlyCursorCell h⟩
    · have hblk : t.blk = s.blk := execPclkRiseBlank_blk (cur := cur) h
      exact ⟨execPclkRiseBlank_frame (cur := cur) h, execPclkRiseBlank_noVsync (cur := cur) h,
        fun _ => congrArg Block.row hblk, fun _ => congrArg Block.rowLenErr hblk,
        onlyCursorCell_of_fb (congrArg Block.fb hblk)⟩
  exact ⟨n.active, n.ready, e.ctrlPclkEn, e.ctrlVsyncEn, e.ctrlIrqEn, n.handoffMissCount, n.frameCount, e.prev,
    e.primed, e.cfg, e.powerOnIndex, e.pending, e.response, hrow, hflag, hcell⟩

end Sys2Proof.Proofs
end

section
/-! Whole frames: the pixels of a frame go to the active buffer in raster order (R35), in COUNT mode (R78) and in HREF mode
(R79). -/

namespace Sys2Proof.Machine

/-! ## Runs -/

/-- A run along a list: where each entry's instructions take the property of the entries before it one entry on, the whole
list's instructions answer with the property of the whole list. -/
theorem execAll_flatMap_progress {α : Type} {P : List α → State → Prop} {f : α → List Instr} {s : State}
    (todo done : List α) (hs : P done s)
    (step : ∀ (before : List α) (x : α) (after : List α) (u : State), before ++ x :: after = done ++ todo →
      P before u → ∃ t, execAll (f x) u = .next t ∧ P (before ++ [x]) t) :
    ∃ t, execAll (todo.flatMap f) s = .next t ∧ P (done ++ todo) t := by
  induction todo generalizing done s with
  | nil => exact ⟨s, rfl, by rwa [List.append_nil]⟩
  | cons x todo ih =>
    obtain ⟨u, hu, hx⟩ := step done x todo s rfl hs
    have hsplit : done ++ [x] ++ todo = done ++ x :: todo := (List.append_cons done x todo).symm
    obtain ⟨t, ht, hall⟩ := ih (done ++ [x]) hx (hsplit ▸ step)
    refine ⟨t, ?_, hsplit ▸ hall⟩
    rw [List.flatMap_cons, execAll_append, hu, andThen_next, ht]

/-- The same along a list with one instruction for each entry. -/
theorem execAll_map_progress {α : Type} {P : List α → State → Prop} {f : α → Instr} {s : State} (todo : List α)
    (hs : P [] s)
    (step : ∀ (before : List α) (x : α) (after : List α) (u : State), before ++ x :: after = todo →
      P before u → ∃ t, exec (f x) u = .next t ∧ P (before ++ [x]) t) :
    ∃ t, execAll (todo.map f) s = .next t ∧ P todo t := by
  rw [List.map_eq_flatMap]
  refine execAll_flatMap_progress todo [] hs fun before x after u hsplit hu => ?_
  rw [execAll_singleton]
  exact step before x after u hsplit hu

/-! ## Raster order (R35) -/

theorem linearOffset_lt {cfg : Config} {r c : Nat} (hr : r < cfg.rows) (hc : c < cfg.cols) :
    linearOffset cfg r c < cfg.rows * cfg.cols := by
  rw [← Nat.div_lt_iff_lt_mul (Nat.zero_lt_of_lt hc), (linearOffset_div_mod r hc).1]
  exact hr

theorem row_lt_of_linearOffset_lt {cfg : Config} {r c : Nat} (h : linearOffset cfg r c < cfg.rows * cfg.cols) :
    r < cfg.rows :=
  Nat.lt_of_mul_lt_mul_right ((Nat.le_add_right ..).trans_lt h)

/-- An offset names one cell. -/
theorem cell_eq_of_linearOffset_eq {cfg : Config} {r r' c c' : Half} (hc : c.toNat < cfg.cols)
    (hc' : c'.toNat < cfg.cols) (h : linearOffset cfg r.toNat c.toNat = linearOffset cfg r'.toNat c'.toNat) :
    r = r' ∧ c = c' := by
  obtain ⟨hdiv, hmod⟩ := linearOffset_div_mod r.toNat hc
  obtain ⟨hdiv', hmod'⟩ := linearOffset_div_mod r'.toNat hc'
  rw [h] at hdiv hmod
  exact ⟨BitVec.eq_of_toNat_eq (hdiv.symm.trans hdiv'), BitVec.eq_of_toNat_eq (hmod.symm.trans hmod')⟩

/-- In rows of `n` entries each, the entries one after the other are in raster order. -/
theorem getElem?_flatten_raster {α : Type} {n : Nat} (lines : List (List α)) (h : ∀ l ∈ lines, l.length = n)
    (r : Nat) {c : Nat} (hc : c < n) : lines.flatten[r * n + c]? = (lines[r]?).bind fun l => l[c]? := by
  induction lines generalizing r with
  | nil => rfl
  | cons l lines ih =>
    have hl : l.length = n := h l List.mem_cons_self
    cases r with
    | zero => simp [List.getElem?_append_left, hl, hc]
    | succ r =>
      have hidx : (r + 1) * n + c = l.length + (r * n + c) := by rw [hl]; ring
      rw [List.flatten_cons, hidx, List.getElem?_append_right (Nat.le_add_right ..), Nat.add_sub_cancel_left,
        List.getElem?_cons_succ]
      exact ih (fun l hl => h l (List.mem_cons_of_mem _ hl)) r

/-! ## The part of a frame that is there -/

/-- The pixels `px` are in the active buffer in raster order, and the cursor is behind the last of them. -/
structure Filled (cfg : Config) (px : List Sample) (s : State) : Prop where
  cfg_eq : s.cfg = cfg
  cursor : linearOffset cfg s.blk.row.toNat s.blk.col.toNat = px.length
  cell : ∀ (r c : Half) (v : Sample), c.toNat < cfg.cols → px[linearOffset cfg r.toNat c.toNat]? = some v →
    bufRead s s.blk.active r c = some (pixelByte v)

section
variable {cfg : Config} {px : List Sample} {s t : State} {cur : Sample}

/-- R81: a new frame. -/
theorem Filled.vsyncRise (h : execVsyncRise s = .next t) : Filled s.cfg [] t where
  cfg_eq := (execVsyncRise_frame h).cfg
  cursor := by
    obtain ⟨hrow, hcol⟩ := execVsyncRise_cursor h
    simp [hrow, hcol, linearOffset]
  cell := nofun

/-- R74, R75: a pixel at the cursor, which moves to the next cell. -/
theorem Filled.pixel (h : Filled cfg px s) (hcol : s.blk.col.toNat < cfg.cols) (hcfg : t.cfg = s.cfg)
    (hactive : t.blk.active = s.blk.active)
    (hfb : t.blk.fb = s.blk.fb.write (cellKey s.blk.active s.blk.row s.blk.col) (pixelByte cur))
    (hnext : linearOffset cfg t.blk.row.toNat t.blk.col.toNat =
      linearOffset cfg s.blk.row.toNat s.blk.col.toNat + 1) : Filled cfg (px ++ [cur]) t where
  cfg_eq := hcfg.trans h.cfg_eq
  cursor := by rw [hnext, h.cursor, List.length_append, List.length_singleton]
  cell := by
    intro r c v hc hv
    rw [hactive, bufRead, hfb]
    by_cases hat : r = s.blk.row ∧ c = s.blk.col
    · obtain ⟨rfl, rfl⟩ := hat
      rw [h.cursor, List.getElem?_concat_length] at hv
      rw [bufRead_write_same, Option.some.inj hv]
    · have hne : linearOffset cfg r.toNat c.toNat ≠ px.length := fun he =>
        hat (cell_eq_of_linearOffset_eq hc hcol (he.trans h.cursor.symm))
      have hlt : linearOffset cfg r.toNat c.toNat < px.length := by
        have := (List.getElem?_eq_some_iff.mp hv).1
        rw [List.length_append, List.length_singleton] at this
        omega
      rw [List.getElem?_append_left hlt] at hv
      rw [read_write_otherCell _ _ fun hcell => hat hcell.2]
      exact h.cell r c v hc hv

/-- R35: the cells of a whole frame. -/
theorem Filled.cell_eq (h : Filled cfg px s) (hv : cfg.valid = true) (hlen : px.length = cfg.rows * cfg.cols) {r c : Nat}
    (hr : r < cfg.rows) (hc : c < cfg.cols) :
    bufRead s s.blk.active (BitVec.ofNat 16 r) (BitVec.ofNat 16 c) = (px[linearOffset cfg r c]?).map pixelByte := by
  obtain ⟨-, hrows, -, hcols⟩ := (configValid_iff cfg).mp hv
  have hr' : (BitVec.ofNat 16 r).toNat = r := Nat.mod_eq_of_lt (by omega)
  have hc' : (BitVec.ofNat 16 c).toNat = c := Nat.mod_eq_of_lt (by omega)
  have hpx := List.getElem?_eq_getElem (hlen ▸ linearOffset_lt hr hc)
  rw [hpx]
  exact h.cell _ _ _ (hc'.symm ▸ hc) (by rw [hr', hc', hpx])

/-! ## A frame in COUNT mode (R78) -/

/-- R74: the count moves the cursor to the next cell in raster order, and keeps the column inside. -/
theorem advanceByCount_cursor (hv : s.cfg.valid = true) (hin : inSpace s.cfg s.blk.row s.blk.col = true) :
    linearOffset s.cfg (advanceByCount s).blk.row.toNat (advanceByCount s).blk.col.toNat =
      linearOffset s.cfg s.blk.row.toNat s.blk.col.toNat + 1 ∧ (advanceByCount s).blk.col.toNat < s.cfg.cols := by
  obtain ⟨-, hrows, hpos, hcols⟩ := (configValid_iff _).mp hv
  obtain ⟨hr, hc⟩ := (inSpace_iff ..).mp hin
  have hrow := toNat_succ_of_lt hr hrows
  have hcol := toNat_succ_of_lt hc hcols
  rw [advanceByCount_eq]
  by_cases hlast : s.blk.col.toNat + 1 = s.cfg.cols
  · simp only [State.setBlk_blk, if_pos hlast, hrow, linearOffset, Nat.succ_mul]
    exact ⟨by simp; omega, hpos⟩
  · simp only [State.setBlk_blk, if_neg hlast, hcol, linearOffset]
    exact ⟨rfl, by omega⟩

/-- A frame of COUNT mode so far: besides, the column is inside (R22). -/
structure CountFilled (cfg : Config) (px : List Sample) (s : State) : Prop extends Filled cfg px s where
  col_lt : s.blk.col.toNat < cfg.cols

theorem CountFilled.pixel (h : CountFilled cfg px s) (hv : cfg.valid = true)
    (hmore : px.length < cfg.rows * cfg.cols) (cur : Sample) :
    ∃ t, exec (.pclkRiseCount cur) s = .next t ∧ CountFilled cfg (px ++ [cur]) t := by
  obtain rfl := h.cfg_eq
  have hin : inSpace s.cfg s.blk.row s.blk.col = true :=
    (inSpace_iff ..).mpr ⟨row_lt_of_linearOffset_lt (h.cursor ▸ hmore), h.col_lt⟩
  have hx := execPclkRiseCount_inSpace (cur := cur) hin
  obtain ⟨hnext, hcol⟩ := advanceByCount_cursor (s := (s.record (.event .pclkRiseCount)).setBlk { s.blk with
    fb := s.blk.fb.write (cellKey s.blk.active s.blk.row s.blk.col) (pixelByte cur) }) hv hin
  have hfilled := h.toFilled.pixel h.col_lt (execPclkRiseCount_frame hx).cfg (execPclkRiseCount_noVsync hx).active
    (by rw [advanceByCount_eq]; rfl) hnext
  exact ⟨_, hx, hfilled, hcol⟩

/-- R22: the cursor behind a whole frame is the clamped one. -/
theorem CountFilled.clamped (h : CountFilled cfg px s) (hlen : px.length = cfg.rows * cfg.cols) :
    s.blk.row.toNat = cfg.rows ∧ s.blk.col = 0 := by
  obtain ⟨hdiv, hmod⟩ := linearOffset_div_mod s.blk.row.toNat h.col_lt
  rw [h.cursor, hlen] at hdiv hmod
  rw [Nat.mul_div_cancel _ (Nat.zero_lt_of_lt h.col_lt)] at hdiv
  rw [Nat.mul_mod_left] at hmod
  exact ⟨hdiv.symm, BitVec.eq_of_toNat_eq hmod.symm⟩

/-- The block after `n` more overruns. -/
def overrunBy (n : Nat) (b : Block) : Block := { b with overrunCount := sat32 (b.overrunCount.toNat + n) }

theorem overrunBy_zero (b : Block) : overrunBy 0 b = b := by
  rw [overrunBy, Nat.add_zero, sat32_toNat_self]

theorem overrunBy_add (n k : Nat) (b : Block) : overrunBy k (overrunBy n b) = overrunBy (n + k) b := by
  simp only [overrunBy, sat32_add, Nat.add_assoc]

/-- R78: every further PCLK_RISE_COUNT adds 1 to the overruns. -/
theorem execAll_clampedCount (h : s.cfg.rows ≤ s.blk.row.toNat) (more : List Sample) :
    ∃ u, execAll (more.map .pclkRiseCount) s = .next u ∧ u.blk = overrunBy more.length s.blk := by
  obtain ⟨u, hu, -, hblk⟩ := execAll_map_progress (f := .pclkRiseCount) (s := s)
    (P := fun px u => u.cfg = s.cfg ∧ u.blk = overrunBy px.length s.blk) more ⟨rfl, (overrunBy_zero _).symm⟩
    fun before x _ u _ ⟨hcfg, hblk⟩ => by
      have hclamped : u.cfg.rows ≤ u.blk.row.toNat := by rw [hcfg, hblk]; exact h
      refine ⟨_, execPclkRiseCount_clamped ((rowDone_iff u).mpr hclamped), hcfg, ?_⟩
      rw [List.length_append, ← overrunBy_add, ← hblk]
      rfl
  exact ⟨u, hu, hblk⟩

/-! ## A frame in HREF mode (R79) -/

/-- A frame of HREF mode so far, with the cursor's row and column and the length flag. -/
structure HrefFilled (cfg : Config) (flag : Bool) (row col : Nat) (px : List Sample) (s : State) : Prop
    extends Filled cfg px s where
  row_eq : s.blk.row.toNat = row
  col_eq : s.blk.col.toNat = col
  flag_eq : s.blk.rowLenErr = flag

variable {flag : Bool} {row col : Nat}

theorem HrefFilled.pixel (h : HrefFilled cfg flag row col px s) (hv : cfg.valid = true) (hrow : row < cfg.rows)
    (hcol : col < cfg.cols) (cur : Sample) :
    ∃ t, exec (.pclkRiseHref cur) s = .next t ∧ HrefFilled cfg flag row (col + 1) (px ++ [cur]) t := by
  obtain rfl := h.cfg_eq
  obtain rfl := h.row_eq
  obtain rfl := h.col_eq
  obtain ⟨-, -, -, hcols⟩ := (configValid_iff _).mp hv
  have hsucc := toNat_succ_of_lt hcol hcols
  refine ⟨_, execPclkRiseHref_inSpace ((inSpace_iff ..).mpr ⟨hrow, hcol⟩), ?_⟩
  exact ⟨h.toFilled.pixel hcol rfl rfl rfl (congrArg (linearOffset s.cfg s.blk.row.toNat) hsucc), rfl, hsucc, h.flag_eq⟩

/-- R82: at the end of a full row the cursor goes to the next one, and the flag stays. -/
theorem HrefFilled.hrefFall (h : HrefFilled cfg flag row cfg.cols px s) (hv : cfg.valid = true) (hrow : row < cfg.rows) :
    ∃ t, exec .hrefFall s = .next t ∧ HrefFilled cfg flag (row + 1) 0 px t := by
  obtain rfl := h.cfg_eq
  obtain rfl := h.row_eq
  obtain ⟨-, hrows, -, -⟩ := (configValid_iff _).mp hv
  have hsucc := toNat_succ_of_lt hrow hrows
  refine ⟨_, execHrefFall_unclamped hrow, ⟨⟨rfl, ?cursor, h.cell⟩, hsucc, rfl, ?flag⟩⟩
  case cursor =>
    rw [← h.cursor, h.col_eq]
    show linearOffset s.cfg (s.blk.row + 1).toNat 0 = _
    rw [hsucc, linearOffset, linearOffset, Nat.succ_mul, Nat.add_zero]
  case flag => simp [h.col_eq, h.flag_eq]

/-- R79: one row of COLS pixels. -/
theorem HrefFilled.line (h : HrefFilled cfg flag row 0 px s) (hv : cfg.valid = true) (hrow : row < cfg.rows)
    {line : List Sample} (hline : line.length = cfg.cols) :
    ∃ t, execAll (hrefRow line) s = .next t ∧ HrefFilled cfg flag (row + 1) 0 (px ++ line) t := by
  obtain ⟨u, hu, hfull⟩ := execAll_map_progress (f := .pclkRiseHref) (s := s)
    (P := fun l => HrefFilled cfg flag row l.length (px ++ l)) line (by simpa using h)
    fun before x after u hsplit hbefore => by
      have hcol : before.length < cfg.cols := by
        rw [← hline, ← hsplit, List.length_append, List.length_cons]
        omega
      simpa using hbefore.pixel hv hrow hcol x
  rw [hline] at hfull
  obtain ⟨t, ht, hnext⟩ := hfull.hrefFall hv hrow
  refine ⟨t, ?_, hnext⟩
  rw [hrefRow, execAll_append, hu, andThen_next, execAll_singleton, ht]

/-- R79: the rows of a frame, one after the other. -/
theorem HrefFilled.lines (h : HrefFilled cfg flag 0 0 [] s) (hv : cfg.valid = true) {lines : List (List Sample)}
    (hrows : lines.length ≤ cfg.rows) (hlines : ∀ l ∈ lines, l.length = cfg.cols) :
    ∃ t, execAll (lines.flatMap hrefRow) s = .next t ∧
      HrefFilled cfg flag lines.length 0 lines.flatten t := by
  refine execAll_flatMap_progress (P := fun ls => HrefFilled cfg flag ls.length 0 ls.flatten) lines [] h
    fun before x after u hsplit hbefore => ?_
  rw [List.nil_append] at hsplit
  have hrow : before.length < cfg.rows := by
    rw [← hsplit, List.length_append, List.length_cons] at hrows
    omega
  simpa using hbefore.line hv hrow (hlines x (by simp [← hsplit]))

end

end Sys2Proof.Machine

namespace Sys2Proof.Proofs

open Sys2Proof.Machine

/-- Settles O24: the pixels fill the buffer in raster order up to the clamp, and each further one is counted. -/
theorem countFrameFillsBuffer : Obligations.CountFrameFillsBuffer := by
  intro s px hv hlen
  obtain ⟨s0, hs0⟩ : ∃ s0, exec .vsyncRise s = .next s0 := ⟨_, rfl⟩
  have hcol : s0.blk.col.toNat < s.cfg.cols := by
    rw [(execVsyncRise_cursor hs0).2]
    exact cols_pos_of_valid hv
  obtain ⟨t, ht, hframe⟩ := execAll_map_progress (f := .pclkRiseCount) (P := CountFilled s.cfg) px
    ⟨Filled.vsyncRise hs0, hcol⟩ fun before x after u hsplit hbefore => by
      have hmore : before.length < s.cfg.rows * s.cfg.cols := by
        rw [← hlen, ← hsplit, List.length_append, List.length_cons]
        omega
      exact hbefore.pixel hv hmore x
  obtain ⟨hrow, hcol⟩ := hframe.clamped hlen
  refine ⟨t, (execAll_cons hs0).trans ht, fun r c hr hc => hframe.cell_eq hv hlen hr hc, hrow, hcol, fun more => ?_⟩
  exact execAll_clampedCount (by rw [hframe.cfg_eq, hrow]) more

/-- Settles O25: each row goes to the buffer and ends at its full length, and the rows one after the other are the frame
in raster order. -/
theorem hrefFrameFillsBuffer : Obligations.HrefFrameFillsBuffer := by
  intro s lines hv hrows hlines
  obtain ⟨s0, hs0⟩ : ∃ s0, exec .vsyncRise s = .next s0 := ⟨_, rfl⟩
  obtain ⟨hrow, hcol⟩ := execVsyncRise_cursor hs0
  have hstart : HrefFilled s.cfg s.blk.rowLenErr 0 0 [] s0 :=
    ⟨Filled.vsyncRise hs0, congrArg BitVec.toNat hrow, congrArg BitVec.toNat hcol, execVsyncRise_rowLenErr hs0⟩
  obtain ⟨t, ht, hframe⟩ := hstart.lines hv hrows.le hlines
  have hlen : lines.flatten.length = s.cfg.rows * s.cfg.cols := by
    rw [List.length_flatten, List.map_congr_left hlines, List.map_const', List.sum_replicate, hrows, smul_eq_mul]
  refine ⟨t, (execAll_cons hs0).trans ht, fun r c hr hc => ?_, hframe.row_eq.trans hrows,
    BitVec.eq_of_toNat_eq hframe.col_eq, hframe.flag_eq⟩
  rw [hframe.cell_eq hv hlen hr hc, linearOffset, getElem?_flatten_raster lines hlines r hc]

end Sys2Proof.Proofs
end

section
/-! The frame-sync and row-sync events, whole (R81, R82), repeated VSYNC_RISE (R83), and samples with VSYNC disabled (R84). -/

namespace Sys2Proof.Machine

/-! ## Repeated VSYNC_RISE (R83) -/

/-- R81: the toggle of a buffer index flips its one bit. -/
theorem one_sub_eq_xor : ∀ b : BitVec 1, 1 - b = b ^^^ 1 := by decide

/-- The parity bit flips with each event. -/
theorem parityBit_succ (n : Nat) : BitVec.ofNat 1 (n % 2) ^^^ 1 = BitVec.ofNat 1 ((n + 1) % 2) := by
  rw [Nat.add_mod]
  rcases Nat.mod_two_eq_zero_or_one n with h | h <;> rw [h] <;> rfl

/-! ## Samples with VSYNC disabled (R84) -/

/-- What stays while VSYNC is disabled: the enable itself and the parameters, all that only VSYNC_RISE writes, and in COUNT
mode a clamped cursor with every cell. -/
structure NoNewFrame (s t : State) : Prop extends NoVsync s t where
  cfg : t.cfg = s.cfg
  ctrlVsyncEn : t.blk.ctrlVsyncEn = s.blk.ctrlVsyncEn
  clamped : s.cfg.rowAdvance = .count → s.cfg.rows ≤ s.blk.row.toNat →
    t.blk.row = s.blk.row ∧ t.blk.col = s.blk.col ∧ t.blk.fb = s.blk.fb

theorem NoNewFrame.refl (s : State) : NoNewFrame s s := ⟨.refl s, rfl, rfl, fun _ _ => ⟨rfl, rfl, rfl⟩⟩

theorem NoNewFrame.trans {s t u : State} (h : NoNewFrame s t) (k : NoNewFrame t u) : NoNewFrame s u where
  toNoVsync := h.toNoVsync.trans k.toNoVsync
  cfg := k.cfg.trans h.cfg
  ctrlVsyncEn := k.ctrlVsyncEn.trans h.ctrlVsyncEn
  clamped := fun hm hrow => by
    obtain ⟨hr, hc, hf⟩ := h.clamped hm hrow
    obtain ⟨kr, kc, kf⟩ := k.clamped (by rw [h.cfg, hm]) (by rwa [h.cfg, hr])
    exact ⟨kr.trans hr, kc.trans hc, kf.trans hf⟩

section
variable {cur : Sample} {s t : State}

theorem noNewFrame_takeSample (s : State) : NoNewFrame s (takeSample cur s) :=
  ⟨noVsync_takeSample s, rfl, rfl, fun _ _ => ⟨rfl, rfl, rfl⟩⟩

/-- In HREF mode nothing is said of the cursor. -/
theorem noNewFrame_of_href (hm : s.cfg.rowAdvance = .href) (n : NoVsync s t) (e : EventFrame s t) : NoNewFrame s t :=
  ⟨n, e.cfg, e.ctrlVsyncEn, fun hc => absurd (hm.symm.trans hc) nofun⟩

/-- R74: a clamped pixel is only counted. -/
theorem execPclkRiseCount_noNewFrame (h : execPclkRiseCount cur s = .next t) : NoNewFrame s t where
  toNoVsync := execPclkRiseCount_noVsync h
  cfg := (execPclkRiseCount_frame h).cfg
  ctrlVsyncEn := (execPclkRiseCount_frame h).ctrlVsyncEn
  clamped := fun _ hrow => by
    rcases execPclkRiseCount_cases h with ⟨-, rfl⟩ | ⟨hopen, -⟩
    · exact ⟨rfl, rfl, rfl⟩
    · exact absurd hrow (rowDone_eq_false.mp hopen).not_ge

theorem execPclkRiseBlank_noNewFrame (h : execPclkRiseBlank cur s = .next t) : NoNewFrame s t where
  toNoVsync := execPclkRiseBlank_noVsync h
  cfg := (execPclkRiseBlank_frame h).cfg
  ctrlVsyncEn := (execPclkRiseBlank_frame h).ctrlVsyncEn
  clamped := fun _ _ => by
    rw [execPclkRiseBlank_blk h]
    exact ⟨rfl, rfl, rfl⟩

/-- R84: the disabled VSYNC_RISE never runs, and HREF_FALL and PCLK_RISE_HREF run in HREF mode only. -/
theorem execSample_noNewFrame (hv : s.blk.ctrlVsyncEn = false) (h : execSample cur s = .next t) : NoNewFrame s t := by
  have href {e : Event} {w : BitVec 22} {a : State} (he : e.inMode s.cfg.rowAdvance = (s.cfg.rowAdvance == .href))
      (hr : raises s.cfg.rowAdvance w e = true) (ha : NoNewFrame s a) : a.cfg.rowAdvance = .href := by
    rw [ha.cfg]
    exact eq_of_beq (he ▸ raises_inMode hr)
  refine execSample_keeps (P := NoNewFrame s) h (.refl s) ?vsync ?hrefFall ?count ?href ?blank ?take
  case vsync => exact fun _ hon => absurd (hv.symm.trans hon) nofun
  case hrefFall =>
    exact fun hr _ a b ha hb =>
      ha.trans (noNewFrame_of_href (href rfl hr ha) (execHrefFall_noVsync hb) (execHrefFall_frame hb))
  case count => exact fun _ _ a b ha hb => ha.trans (execPclkRiseCount_noNewFrame hb)
  case href =>
    exact fun hr _ a b ha hb =>
      ha.trans (noNewFrame_of_href (href rfl hr ha) (execPclkRiseHref_noVsync hb) (execPclkRiseHref_frame hb))
  case blank => exact fun a b ha hb => ha.trans (execPclkRiseBlank_noNewFrame hb)
  case take => exact fun a ha => ha.trans (noNewFrame_takeSample a)

/-- R84, along a list of samples: the enable stays 0. -/
theorem execAll_samples_noNewFrame {vs : List Sample} (hv : s.blk.ctrlVsyncEn = false)
    (h : execAll (vs.map .sample) s = .next t) : NoNewFrame s t := by
  refine execAll_keeps h (.refl s) fun i hi a b ha hb => ?_
  obtain ⟨v, -, rfl⟩ := List.mem_map.mp hi
  exact ha.trans (execSample_noNewFrame (ha.ctrlVsyncEn.trans hv) hb)

end

end Sys2Proof.Machine

namespace Sys2Proof.Proofs

open Sys2Proof.Machine

/-- Settles O21: by whether the cursor is clamped; below the clamp the flag is set exactly where the row's length is not
COLS. -/
theorem hrefFallResult : Obligations.HrefFallResult := by
  refine fun s => ⟨fun hrow => execHrefFall_clamped ((rowDone_iff s).mpr hrow), fun hrow => ?_⟩
  refine (execHrefFall_unclamped hrow).trans ?_
  by_cases hc : s.blk.col.toNat = s.cfg.cols <;> simp [hc]

/-- Settles O22: by induction on the number of events, the last one putting the cursor at (0, 0) and flipping `active`. -/
theorem repeatedVsyncRise : Obligations.RepeatedVsyncRise := by
  intro n s
  induction n with
  | zero => exact ⟨s, rfl, nofun, BitVec.xor_zero.symm, (BitVec.add_zero _).symm, rfl⟩
  | succ n ih =>
    obtain ⟨t, ht, -, hactive, hcount, hfb⟩ := ih
    obtain ⟨u, hu⟩ : ∃ u, exec .vsyncRise t = .next u := ⟨_, rfl⟩
    refine ⟨u, ?run, fun _ => execVsyncRise_cursor hu, ?active, ?count, (execVsyncRise_fb hu).trans hfb⟩
    case run => rw [List.replicate_succ', execAll_append, ht, andThen_next, execAll_singleton, hu]
    case active =>
      rw [execVsyncRise_active hu, hactive, one_sub_eq_xor, BitVec.xor_assoc, parityBit_succ]
    case count =>
      rw [execVsyncRise_frameCount hu, hcount, BitVec.add_assoc, BitVec.ofNat_add]
      rfl

/-- Settles O23: no event that a sample runs starts a frame, and a clamped pixel of COUNT mode is only counted. -/
theorem noSwapWithVsyncDisabled : Obligations.NoSwapWithVsyncDisabled := by
  intro vs s t hv h
  have k := execAll_samples_noNewFrame hv h
  exact ⟨k.active, k.ready, k.frameCount, k.handoffMissCount, k.clamped⟩

/-- Settles O20: by whether the last frame is still unacknowledged. -/
theorem vsyncRiseResult : Obligations.VsyncRiseResult := by
  intro s
  obtain ⟨t, ht⟩ : ∃ t, exec .vsyncRise s = .next t := ⟨_, rfl⟩
  rw [ht]
  rcases execVsyncRise_cases ht with ⟨hr, rfl⟩ | ⟨hr, rfl⟩
  · simp [hr, exposeFrame, handoffMiss, swapBuffers, State.raise, State.record, State.setBlk, sat32]
  · simp [hr, exposeFrame, swapBuffers, State.record, State.setBlk]

end Sys2Proof.Proofs
end

section
/-! The host ports: the words the registers read as, bit by bit (R86–R103), the pixel port by its two checks (R104), and
the accesses, events and reset that write no buffer cell (R105). -/

namespace Sys2Proof.Machine

/-! ## The register words (R86, R88, R98, R100, R102) -/

/-- R12: extending by zeros keeps each bit, and reads 0 above the value. -/
theorem zext32_getLsbD {n : Nat} (v : BitVec n) (hn : n ≤ 32) (k : Nat) : (zext32 v).getLsbD k = v.getLsbD k := by
  rw [zext32, BitVec.getLsbD_setWidth]
  by_cases hk : k < 32
  · rw [decide_eq_true hk, Bool.true_and]
  · rw [BitVec.getLsbD_of_ge v k (by omega), Bool.and_false]

theorem zext32_toNat {n : Nat} (v : BitVec n) (hn : n ≤ 32) : (zext32 v).toNat = v.toNat :=
  BitVec.toNat_setWidth_of_le hn

theorem ctrlWord_bits (s : State) :
    (ctrlWord s).getLsbD 0 = s.blk.ctrlPclkEn ∧ (ctrlWord s).getLsbD 1 = s.blk.ctrlVsyncEn ∧
    (ctrlWord s).getLsbD 2 = s.blk.ctrlIrqEn ∧ ∀ k, 3 ≤ k → (ctrlWord s).getLsbD k = false := by
  refine ⟨?_, ?_, ?_, fun k hk => ?_⟩ <;> rw [ctrlWord, zext32_getLsbD _ (by decide)]
  case refine_4 => exact BitVec.getLsbD_of_ge _ k hk
  all_goals simp only [BitVec.getLsbD_append, BitVec.getLsbD_ofBool]; simp

theorem statusWord_bits (s : State) :
    (statusWord s).getLsbD 0 = s.blk.active.getLsbD 0 ∧ (statusWord s).getLsbD 1 = s.blk.ready ∧
    (statusWord s).getLsbD 2 = s.clamped ∧ (statusWord s).getLsbD 3 = s.blk.rowLenErr ∧
    (statusWord s).getLsbD 4 = s.blk.primed ∧ ∀ k, 5 ≤ k → (statusWord s).getLsbD k = false := by
  refine ⟨?_, ?_, ?_, ?_, ?_, fun k hk => ?_⟩ <;> rw [statusWord, zext32_getLsbD _ (by decide)]
  case refine_6 => exact BitVec.getLsbD_of_ge _ k hk
  all_goals simp only [BitVec.getLsbD_append, BitVec.getLsbD_ofBool]; simp

/-- R86's example: CTRL reads as the low three bits of the word that holds the enables in them. -/
theorem ctrlWord_eq_and_seven {s : State} {w : Word32} (hp : s.blk.ctrlPclkEn = w.getLsbD 0)
    (hv : s.blk.ctrlVsyncEn = w.getLsbD 1) (hi : s.blk.ctrlIrqEn = w.getLsbD 2) : ctrlWord s = w &&& 7 := by
  obtain ⟨h0, h1, h2, habove⟩ := ctrlWord_bits s
  apply BitVec.eq_of_getLsbD_eq
  intro k _
  rw [BitVec.getLsbD_and]
  match k with
  | 0 => rw [h0, hp]; exact (Bool.and_true _).symm
  | 1 => rw [h1, hv]; exact (Bool.and_true _).symm
  | 2 => rw [h2, hi]; exact (Bool.and_true _).symm
  | k + 3 =>
    have hseven : (7 : Word32).getLsbD (k + 3) = false :=
      (zext32_getLsbD (7 : BitVec 3) (by decide) _).trans (BitVec.getLsbD_of_ge _ _ (Nat.le_add_left 3 k))
    rw [habove _ (Nat.le_add_left 3 k), hseven, Bool.and_false]

/-- R98: of legal parameters, which fit 16 bits. -/
theorem geometryWord_toNat {s : State} (h : s.cfg.valid = true) :
    (geometryWord s).toNat = s.cfg.rows * 65536 + s.cfg.cols := by
  obtain ⟨-, hr, -, hc⟩ := (configValid_iff s.cfg).mp h
  have hrows : (BitVec.ofNat 16 s.cfg.rows).toNat = s.cfg.rows := Nat.mod_eq_of_lt (Nat.lt_succ_of_le hr)
  have hcols : (BitVec.ofNat 16 s.cfg.cols).toNat = s.cfg.cols := Nat.mod_eq_of_lt (Nat.lt_succ_of_le hc)
  rw [geometryWord, BitVec.toNat_append, ← Nat.shiftLeft_add_eq_or_of_lt (BitVec.isLt _), hrows, hcols,
    Nat.shiftLeft_eq]

theorem configWord_eq (s : State) : configWord s = if s.cfg.rowAdvance = .href then 1 else 0 := by
  unfold configWord
  cases s.cfg.rowAdvance <;> rfl

theorem pinsWord_toNat (s : State) : (pinsWord s).toNat = s.blk.prev.toNat := zext32_toNat _ (by decide)

/-- R102: before the first sample. -/
theorem Inv.pinsWord_unprimed {s : State} (h : Inv s) (hp : s.blk.primed = false) : pinsWord s = 0 := by
  rw [pinsWord, h.prev_unprimed hp]
  rfl

/-! ## A W1C bit (R89) -/

theorem w1c_eq_ite (flag bit : Bool) : (flag && !bit) = if bit then false else flag := by
  cases bit
  · exact Bool.and_true _
  · exact Bool.and_false _

/-! ## The pixel port (R104), by the range check and then the buffer check -/

section
variable {s : State} {b : BitVec 1} {r c : Half}

theorem execPixelRead_outside (h : inSpace s.cfg r c = false) :
    execPixelRead b r c s = .next ((s.raise (.pixelRangeError b r c)).respond (.pix .errRange 0)) := by
  simp [execPixelRead, h]

theorem execPixelRead_active (h : inSpace s.cfg r c = true) (hb : b = s.blk.active) :
    execPixelRead b r c s = .next ((s.raise (.activeBufferRead b r c)).respond (.pix .errActive 0)) := by
  simp [execPixelRead, h, hb]

theorem execPixelRead_ready (h : inSpace s.cfg r c = true) (hb : b ≠ s.blk.active) :
    execPixelRead b r c s = .next (s.respond (.pix .ok (cellByte s b r c))) := by
  simp [execPixelRead, h, hb]

theorem cellByte_of_written {v : Byte} (h : bufRead s b r c = some v) : cellByte s b r c = v := by
  simp only [cellByte, h]

/-- The byte of a cell depends on the memory through the one read of that cell. -/
theorem cellByte_setFb {fb : Memory} (h : fb.read (cellKey b r c) = s.blk.fb.read (cellKey b r c)) :
    cellByte { s with blk := { s.blk with fb := fb } } b r c = cellByte s b r c := by
  simp only [cellByte, bufRead, h]

/-- Both checks read the parameters and `active` alone, and only a read that passes them shows a byte. -/
theorem execPixelRead_response_congr {s' t t' : State} (h : execPixelRead b r c s = .next t)
    (h' : execPixelRead b r c s' = .next t') (hcfg : s'.cfg = s.cfg) (hactive : s'.blk.active = s.blk.active)
    (hcell : b ≠ s.blk.active → cellByte s' b r c = cellByte s b r c) : t'.response = t.response := by
  cases hin : inSpace s.cfg r c with
  | false =>
    rw [execPixelRead_outside hin] at h
    rw [execPixelRead_outside (hcfg ▸ hin)] at h'
    cases h; cases h'; rfl
  | true =>
    by_cases hb : b = s.blk.active
    · rw [execPixelRead_active hin hb] at h
      rw [execPixelRead_active (hcfg ▸ hin) (hactive ▸ hb)] at h'
      cases h; cases h'; rfl
    · rw [execPixelRead_ready hin hb] at h
      rw [execPixelRead_ready (hcfg ▸ hin) (hactive ▸ hb), hcell hb] at h'
      cases h; cases h'; rfl

end

theorem eq_ready_of_ne_active : ∀ {a b : BitVec 1}, b ≠ a → b = 1 - a := by decide

/-! ## What writes no buffer cell (R105) -/

theorem execHrefFall_fb {s t : State} (h : execHrefFall s = .next t) : t.blk.fb = s.blk.fb := by
  rcases execHrefFall_cases h with ⟨-, rfl⟩ | ⟨-, -, rfl⟩ | ⟨-, -, rfl⟩ <;> rfl

end Sys2Proof.Machine

namespace Sys2Proof.Proofs

open Sys2Proof.Machine

/-- Settles O26: the bits of the two words. -/
theorem controlAndStatusReads : Obligations.ControlAndStatusReads :=
  fun s => ⟨⟨ctrlWord s, rfl, ctrlWord_bits s⟩, statusWord s, rfl, statusWord_bits s⟩

/-- Settles O28: the geometry fits its two halves, and the invariant says what `prev` is before the first sample. -/
theorem configurationAndPinsReads : Obligations.ConfigurationAndPinsReads :=
  fun s hv => ⟨⟨geometryWord s, rfl, geometryWord_toNat hv⟩, ⟨configWord s, rfl, configWord_eq s⟩,
    pinsWord s, rfl, pinsWord_toNat s, Inv.pinsWord_unprimed⟩

/-- Settles O30: the write puts the low three bits in the enables, and the read shows those and zeros. -/
theorem controlReadsBackLowBits : Obligations.ControlReadsBackLowBits := by
  intro s wdata
  obtain ⟨t, ht⟩ : ∃ t, exec (.wrCtrl wdata) s = .next t := ⟨_, rfl⟩
  have hblk : t.blk = hostBlk (.wrCtrl wdata) s.blk := (exec_hostAnswer rfl ht).blk
  have hword : ctrlWord t = wdata &&& 7 := by apply ctrlWord_eq_and_seven <;> rw [hblk] <;> rfl
  refine ⟨t.respondOk (ctrlWord t), execAll_cons ht, ?_⟩
  rw [State.respondOk_response, hword]

/-- Settles O31: bit by bit the W1C clear, and `fetch` takes the host's request out of the instant first. -/
theorem statusWriteClears : Obligations.StatusWriteClears := by
  refine fun s wdata => ⟨?write, fun v rest hv hp => ?beforeSample⟩
  case write =>
    rw [← w1c_eq_ite, ← w1c_eq_ite]
    rfl
  case beforeSample => exact step_of_decode hv (fetch_of_host hp rfl rfl) (decodeReg_writeSel .status wdata)

/-- Settles O35: by the range check, and inside the frame by the buffer check. -/
theorem pixelReadResult : Obligations.PixelReadResult := by
  refine fun s b r c => ⟨fun hout => ?outside, fun hr hc hb => ?active, fun hr hc hb => ?ready⟩
  case outside =>
    refine execPixelRead_outside (Bool.eq_false_iff.mpr fun hin => ?_)
    obtain ⟨hr, hc⟩ := (inSpace_iff ..).mp hin
    exact hout.elim hr.not_ge hc.not_ge
  case active => exact execPixelRead_active ((inSpace_iff ..).mpr ⟨hr, hc⟩) hb
  case ready =>
    exact ⟨_, execPixelRead_ready ((inSpace_iff ..).mpr ⟨hr, hc⟩) hb, fun _ => cellByte_of_written⟩

/-- Settles O36: a read that shows a byte at all is of the other buffer, where the two memories read the same. -/
theorem pixelReadIgnoresActiveBuffer : Obligations.PixelReadIgnoresActiveBuffer := by
  intro s t t' fb' b r c hsame h h'
  have hread (hb : b ≠ s.blk.active) : fb'.read (cellKey b r c) = s.blk.fb.read (cellKey b r c) := by
    rw [eq_ready_of_ne_active hb]
    exact hsame r c
  exact execPixelRead_response_congr h h' rfl rfl fun hb => cellByte_setFb (hread hb)

/-- Settles O37: host accesses by the block they answer, and the events and the reset that are no writers one by one. -/
theorem hostNeverWritesBuffers : Obligations.HostNeverWritesBuffers := by
  intro i s t hw h
  by_cases hi : isHostAccess i = true
  · rw [(exec_hostAnswer hi h).blk]
    exact (hostBlk_captureKept i s.blk).fb
  cases i
  case sample | pclkRiseCount | pclkRiseHref => cases hw
  case vsyncRise => exact execVsyncRise_fb h
  case hrefFall => exact execHrefFall_fb h
  case pclkRiseBlank cur => exact congrArg Block.fb (execPclkRiseBlank_blk (cur := cur) h)
  case reset =>
    obtain rfl := Host.Outcome.next.inj h.symm
    rfl
  all_goals exact absurd rfl hi

/-- Settles O27: each read's response is the element itself. -/
theorem cursorAndCounterReads : Obligations.CursorAndCounterReads := fun _ => ⟨rfl, rfl, rfl, rfl⟩

/-- Settles O29: the write's next state is the one stated. -/
theorem controlWrite : Obligations.ControlWrite := fun _ _ => rfl

/-- Settles O32: the next state of each of the two writes is the one stated. -/
theorem counterWritesClear : Obligations.CounterWritesClear := fun _ _ => ⟨rfl, rfl⟩

/-- Settles O33: each of the five writes only responds. -/
theorem ignoredWrites : Obligations.IgnoredWrites := by
  intro s wdata i hi
  simp only [List.mem_cons, List.not_mem_nil, or_false] at hi
  rcases hi with rfl | rfl | rfl | rfl | rfl <;> rfl

end Sys2Proof.Proofs
end

section
/-! The exceptions: R85's check and the one condition it raises, and that no step stops (R107, R112, R117). -/

namespace Sys2Proof.Machine

/-! ## R85's check, field by field -/

theorem selIllegal_iff (sel : BitVec 16) :
    selIllegal sel = true ↔ sel.extractLsb' 13 2 ≠ 2 ∨ sel.extractLsb' 8 5 ≠ 0 ∨ sel.extractLsb' 0 2 ≠ 0 ∨
      0x20 < (sel.extractLsb' 0 8).toNat := by
  have halign : (sel.extractLsb' 0 8).extractLsb' 0 2 = sel.extractLsb' 0 2 := by
    ext i hi
    simp
  simp only [selIllegal, selSize, selReserved, selOffset, halign, Bool.or_eq_true, bne_iff_ne, gt_iff_lt,
    decide_eq_true_eq, or_assoc]

theorem decodeReg_of_illegal {sel : BitVec 16} (wdata : Word32) (h : selIllegal sel = true) :
    decodeReg sel wdata = .error (.hostBusError sel) := if_pos h

/-- R41, R60: the nine registers fill the aligned offsets up to 0x20. -/
theorem exists_regAt_of_aligned {off : BitVec 8} (halign : off.extractLsb' 0 2 = 0) (hle : off.toNat ≤ 0x20) :
    ∃ r, regAt off = some r := by
  have rows : ∀ k : Fin 9, (regAt (BitVec.ofNat 8 (4 * k))).isSome = true := by decide
  have hmod : off.toNat % 4 = 0 := by simpa using congrArg BitVec.toNat halign
  obtain ⟨k, hk⟩ := Nat.dvd_of_mod_eq_zero hmod
  have hoff : off = BitVec.ofNat 8 (4 * k) := by rw [← hk, BitVec.ofNat_toNat, BitVec.setWidth_eq]
  exact Option.isSome_iff_exists.mp (hoff ▸ rows ⟨k, by omega⟩)

/-- R60, R85: a selector that passes the check is the read or the write of a register. -/
theorem exists_reg_of_legal {sel : BitVec 16} (h : selIllegal sel = false) :
    ∃ r, sel = readSel r ∨ sel = writeSel r := by
  have hfields := h
  simp only [selIllegal, Bool.or_eq_false_iff, bne_eq_false_iff_eq, decide_eq_false_iff_not, not_lt] at hfields
  obtain ⟨⟨-, halign⟩, hle⟩ := hfields
  obtain ⟨r, hr⟩ := exists_regAt_of_aligned halign hle
  exact ⟨r, sel_of_legal h hr⟩

/-! ## What an access that passes the check answers: OK, and no condition -/

theorem exec_readInstr (r : Reg) (s : State) : ∃ data, exec r.readInstr s = .next (s.respondOk data) := by
  cases r <;> exact ⟨_, rfl⟩

theorem exec_writeInstr (r : Reg) (wdata : Word32) (s : State) :
    exec (r.writeInstr wdata) s = .next ((s.setBlk (hostBlk (r.writeInstr wdata) s.blk)).respondOk 0) := by
  cases r <;> rfl

theorem decodeReg_answersOk {sel : BitVec 16} (wdata : Word32) (h : selIllegal sel = false) :
    ∃ i, decodeReg sel wdata = .ok i ∧
      ∀ s, ∃ t data, exec i s = .next t ∧ t.response = some (.reg .ok data) ∧ t.history = s.history := by
  obtain ⟨r, rfl | rfl⟩ := exists_reg_of_legal h
  · refine ⟨_, decodeReg_readSel r wdata, fun s => ?_⟩
    obtain ⟨data, hx⟩ := exec_readInstr r s
    exact ⟨_, data, hx, rfl, rfl⟩
  · exact ⟨_, decodeReg_writeSel r wdata, fun s => ⟨_, 0, exec_writeInstr r wdata s, rfl, rfl⟩⟩

/-! ## Where a step answers -/

/-- R61: a word that is no instruction stops nothing. -/
theorem step_of_reject {s : State} {w : FormatWord} {e : Reject} {p : List Instant} (hs : s.cfg.valid = true)
    (hf : fetch s = (some w, s.begin p)) (hd : decode s.cfg.rowAdvance w = .error e) :
    step s = .next (rejectWord e (s.begin p)) := by
  simp [step, hs, hf, hd]

theorem execPixelRead_answers (b : BitVec 1) (r c : Half) (s : State) : ∃ t, execPixelRead b r c s = .next t := by
  cases hin : inSpace s.cfg r c with
  | false => exact ⟨_, execPixelRead_outside hin⟩
  | true =>
    by_cases hb : b = s.blk.active
    · exact ⟨_, execPixelRead_active hin hb⟩
    · exact ⟨_, execPixelRead_ready hin hb⟩

theorem exec_hostAccess_answers {i : Instr} (hi : isHostAccess i = true) (s : State) : ∃ t, exec i s = .next t := by
  cases i
  case pixelRead b r c => exact execPixelRead_answers b r c s
  case sample | vsyncRise | hrefFall | pclkRiseCount | pclkRiseHref | pclkRiseBlank | reset => cases hi
  all_goals exact ⟨_, rfl⟩

/-- R107: the instruction of a word that a port carries answers, under the invariant. -/
theorem Inv.exec_fetched_answers {s : State} {w : FormatWord} {i : Instr} (h : Inv s) (p : List Instant)
    (hw : (fetch s).1 = some w) (hd : decode s.cfg.rowAdvance w = .ok i) : ∃ t, exec i (s.begin p) = .next t := by
  obtain ⟨rfl, -⟩ | ⟨⟨q, rfl⟩ | ⟨v, rfl⟩, -⟩ := fetch_word s hw
  · obtain rfl := Except.ok.inj hd
    exact ⟨_, rfl⟩
  · exact exec_hostAccess_answers (decode_word_isHostAccess hd) _
  · obtain rfl := Except.ok.inj hd
    exact Inv.sample_answers (s := s.begin p) { h with } v

end Sys2Proof.Machine

namespace Sys2Proof.Proofs

open Sys2Proof.Machine

/-- Settles O34: by R85's check, a selector that fails it is rejected, and one that passes it is a register's. -/
theorem badSelectorIsHostBusError : Obligations.BadSelectorIsHostBusError := by
  intro s i rest sel wdata hs hp hr hq
  have hf : fetch s = (some (.H sel wdata), s.begin (afterHost i rest)) := fetch_of_host hp hr hq
  rw [← selIllegal_iff]
  refine ⟨fun hill => ?illegal, fun hlegal => ?legal⟩
  case illegal => exact step_of_reject hs hf (decodeReg_of_illegal wdata hill)
  case legal =>
    obtain ⟨ins, hd, hx⟩ := decodeReg_answersOk wdata (Bool.eq_false_iff.mpr hlegal)
    obtain ⟨t, data, ht, hresp, hhist⟩ := hx (s.begin (afterHost i rest))
    exact ⟨t, data, (step_of_decode hs hf hd).trans ht, hresp, hhist⟩

/-- Settles O50: by the word `fetch` takes, and whether it is an instruction. -/
theorem stepNeverStops : Obligations.StepNeverStops := by
  intro s h
  obtain ⟨p, hp⟩ := fetch_begin s
  cases hw : (fetch s).1 with
  | none => exact ⟨_, step_of_noWord h.cfg_valid (Prod.ext hw hp)⟩
  | some w =>
    have hf : fetch s = (some w, s.begin p) := Prod.ext hw hp
    cases hd : decode s.cfg.rowAdvance w with
    | error e => exact ⟨_, step_of_reject h.cfg_valid hf hd⟩
    | ok i =>
      obtain ⟨t, ht⟩ := h.exec_fetched_answers p hw hd
      exact ⟨t, (step_of_decode h.cfg_valid hf hd).trans ht⟩

end Sys2Proof.Proofs
end

section
/-! Power-on and the reset step (R130, R131). -/

namespace Sys2Proof.Machine

/-- R130: the whole next state of the reset step. -/
theorem execReset_eq (s : State) : execReset s = .next (s.setBlk (Block.afterReset s.blk.fb)) := rfl

/-- R120, R130: an instant with the reset input is the reset step alone, whatever else stands in the instant. -/
theorem step_of_rst {s : State} {i : Instant} {rest : List Instant} (hs : s.cfg.valid = true)
    (hp : s.pending = i :: rest) (hr : i.rst = true) : step s = execReset (s.begin rest) :=
  step_of_decode hs (fetch_of_rst hp hr) rfl

/-- R131: over an empty memory every cell holds the unknown value. -/
theorem bufRead_of_fb_nil {s : State} (h : s.blk.fb = []) (b : BitVec 1) (r c : Half) : bufRead s b r c = none := by
  rw [bufRead, h]
  rfl

end Sys2Proof.Machine

namespace Sys2Proof.Proofs

open Sys2Proof.Machine

/-- Settles O6: a power-on that answers gives the block of `State.reset`, whose memory is empty. -/
theorem powerOnState : Obligations.PowerOnState := by
  intro rows cols mode index t h
  obtain ⟨cfg, -, rfl⟩ := powerOn_eq_next h
  exact ⟨rfl, rfl, bufRead_of_fb_nil rfl⟩

/-- Settles O7: the reset step writes the reset block, and the step of an instant with the reset input is that step from
the state where the rest of the instant is dropped and the outputs are cleared. -/
theorem resetStep : Obligations.ResetStep := by
  intro s
  refine ⟨execReset_eq s, rfl, fun i rest hs hp hr => ?_⟩
  calc step s = execReset (s.begin rest) := step_of_rst hs hp hr
    _ = .next ((s.begin rest).setBlk (Block.afterReset s.blk.fb)) := execReset_eq _

end Sys2Proof.Proofs
end
